-- ==== Sys2Proof/Word.lean ====
section
/-! DEFINITION. The word types of the BaseXX block and their plain width changes (rules R6 and R113). -/

namespace Sys2Proof

/-- A byte: an 8-bit unsigned value (R6). -/
abbrev Byte := BitVec 8

/-- A character: a 16-bit code unit (R6). -/
abbrev Char16 := BitVec 16

/-- The high byte of a character, bits [15:8] (R31). -/
def Char16.high (c : Char16) : Byte := c.extractLsb' 8 8

/-- The low byte of a character, bits [7:0] (R31). -/
def Char16.low (c : Char16) : Byte := c.extractLsb' 0 8

/-- `trunc8(v)`: the low 8 bits of a natural number (00_scope.md section 6.1). -/
def trunc8 (v : Nat) : Byte := BitVec.ofNat 8 v

end Sys2Proof
end

