-- ==== Sys2Proof/Config.lean ====
section
/-! DEFINITION. The defaults of the spec's open parameters, and the free values: what the spec leaves without a value. -/

namespace Sys2Proof

/-- The default of `LEN_BITS`, the width of `SRC_LEN`, `DST_CAP` and `RESP.COUNT` (R7). The width itself is an argument of
the model: every state carries its own (log entry 1). -/
def Config.lenBits : Nat := 32

/-- The default of `N_INSTANCES`, the number of independent blocks of a platform (R92). The number itself is an argument of
`System.resetAt` (log entry 2). -/
def Config.nInstances : Nat := 1

/-- A length or a count: `LEN_BITS` bits, unsigned (R7, R45). -/
abbrev Len (lenBits : Nat) := BitVec lenBits

/-- Free value: the byte that draw `d` leaves in element `i` of a byte destination whose contents the spec calls
unspecified (R86, R94; log entries 6 and 7). No body: no proof can see it. -/
opaque Config.freeByte (d i : Nat) : Byte

/-- Free value: the character that draw `d` leaves in element `i` of a character destination whose contents the spec
calls unspecified (R94; log entry 7). No body. -/
opaque Config.freeChar (d i : Nat) : Char16

/-- Free value: what `CMD` reads as between reset number `d` and the host's next write of it (R26; log entry 8). No body. -/
opaque Config.freeCmd (d : Nat) : BitVec 8

/-- Free value: what `SRC_LEN` reads as between reset number `d` and the host's next write of it (R26; log entry 8).
No body. -/
opaque Config.freeSrcLen (lenBits d : Nat) : Len lenBits

/-- Free value: what `DST_CAP` reads as between reset number `d` and the host's next write of it (R26; log entry 8).
No body. -/
opaque Config.freeDstCap (lenBits d : Nat) : Len lenBits

end Sys2Proof
end

