-- ==== Sys2Proof/Syntax.lean ====
section
/-! DEFINITION. The commands of the block (R46): the one inductive of instructions, and a command with its operands. -/

namespace Sys2Proof

/-- The seven commands of R46, one constructor per row of spec/opcode_table.json. A decoder carries the `NULL` bit of
its word (R43); no command has another field (R45). -/
inductive Instr where
  /-- `B16ENC.L`: base16 encode, lower case (R54). -/
  | b16encL
  /-- `B16ENC.U`: base16 encode, upper case (R55). -/
  | b16encU
  /-- `B16DEC`: base16 decode (R58). -/
  | b16dec (null : Bool)
  /-- `B64ENC`: base64url encode, no padding (R65). -/
  | b64enc
  /-- `B64ENC.P`: base64url encode, with padding (R66). -/
  | b64encP
  /-- `B64DEC`: base64url decode, no trimming (R71). -/
  | b64dec (null : Bool)
  /-- `B64DEC.T`: base64url decode, trailing `=` trimmed first (R72). -/
  | b64decT (null : Bool)
  deriving DecidableEq, Repr

/-- The mnemonic of R46. -/
def Instr.mnemonic : Instr → String
  | .b16encL => "B16ENC.L"
  | .b16encU => "B16ENC.U"
  | .b16dec _ => "B16DEC"
  | .b64enc => "B64ENC"
  | .b64encP => "B64ENC.P"
  | .b64dec _ => "B64DEC"
  | .b64decT _ => "B64DEC.T"

/-- Whether the input is said to be absent: the `NULL` bit (R43). An encoder has none. -/
def Instr.null : Instr → Bool
  | .b16encL | .b16encU | .b64enc | .b64encP => false
  | .b16dec n | .b64dec n | .b64decT n => n

/-- Whether the command is a decoder: characters to bytes (R30). -/
def Instr.isDecoder : Instr → Bool
  | .b16encL | .b16encU | .b64enc | .b64encP => false
  | .b16dec _ | .b64dec _ | .b64decT _ => true

/-- A command with its two scalar operands as the assembler line of R50 writes them: natural numbers, before they
are put into `SRC_LEN` and `DST_CAP` (R40, R45). -/
structure Command where
  instr  : Instr
  srcLen : Nat
  dstCap : Nat
  deriving DecidableEq, Repr

/-- The assembler line of R50: `<mnemonic> <src>, <dst_cap>`, where `<src>` is `null` when the input is absent. -/
def Command.render (c : Command) : String :=
  c.instr.mnemonic ++ " " ++ (if c.instr.null then "null" else toString c.srcLen) ++ ", " ++ toString c.dstCap

end Sys2Proof
end

