-- ==== Sys2Proof/WellFormed.lean ====
section
/-! DEFINITION. Which commands can be written: the checks on the operands of a command. An `Instr` alone has no
ill-formed value, since its one field is a bit (R46). -/

namespace Sys2Proof

/-- Every instruction has an encoding: the fields R46 gives it are one bit wide at most. -/
def Instr.wellFormed : Instr → Bool
  | .b16encL | .b16encU | .b64enc | .b64encP => true
  | .b16dec _ | .b64dec _ | .b64decT _ => true

/-- `SRC_LEN` holds the source length: it is below 2^LEN_BITS (R7; a longer input cannot be expressed, U10). -/
def Command.srcLenFits (lenBits : Nat) (c : Command) : Bool := decide (c.srcLen < 2 ^ lenBits)

/-- `DST_CAP` holds the destination capacity: it is below 2^LEN_BITS (R7). -/
def Command.dstCapFits (lenBits : Nat) (c : Command) : Bool := decide (c.dstCap < 2 ^ lenBits)

/-- With the keyword `null` for a source, `SRC_LEN` is written as 0 (R50). -/
def Command.nullHasNoLength (c : Command) : Bool := !c.instr.null || c.srcLen == 0

/-- The command can be written (R50) and put into command registers of `lenBits` bits (R7). -/
def Command.wellFormed (lenBits : Nat) (c : Command) : Bool :=
  c.instr.wellFormed && c.srcLenFits lenBits && c.dstCapFits lenBits && c.nullHasNoLength

end Sys2Proof
end

