-- ==== Sys2Proof/Decode.lean ====
section
/-! DEFINITION. The decoder of the command word (R40 to R49), total on the 256 words and rejecting by name, and the
encoder, written from the same table (R46). -/

namespace Sys2Proof

/-- `OP`, bits [1:0] of the command word (R41). -/
def cmdOp (w : BitVec 8) : BitVec 2 := w.extractLsb' 0 2

/-- `FLAG`, bit 2 of the command word (R42). -/
def cmdFlag (w : BitVec 8) : Bool := w.getLsbD 2

/-- `NULL`, bit 3 of the command word (R43). -/
def cmdNull (w : BitVec 8) : Bool := w.getLsbD 3

/-- The reserved bits [7:4] of the command word (R44). -/
def cmdReserved (w : BitVec 8) : BitVec 4 := w.extractLsb' 4 4

/-- The four units of the block (R1, R41). -/
inductive FuncUnit where
  | base16Encoder
  | base16Decoder
  | base64urlEncoder
  | base64urlDecoder
  deriving DecidableEq, Repr

/-- The unit that `OP` selects (R41). -/
def unitOfOp (op : BitVec 2) : FuncUnit :=
  if op = 0 then .base16Encoder
  else if op = 1 then .base16Decoder
  else if op = 2 then .base64urlEncoder
  else .base64urlDecoder

/-- Why a word is illegal (R47). -/
inductive DecodeError where
  /-- A reserved bit is set (R44): the words 0x10 to 0xFF. -/
  | reservedBits
  /-- `NULL` with an encoder (R43): 0x08, 0x0C, 0x0A, 0x0E. -/
  | nullOnEncoder
  /-- `FLAG` with `B16DEC` (R42): 0x05, 0x0D. -/
  | flagOnB16dec
  deriving DecidableEq, Repr

/-- The command that a word selects, or why the word is illegal (R46, R47, R49). -/
def decode (w : BitVec 8) : Except DecodeError Instr :=
  if cmdReserved w ≠ 0 then .error .reservedBits
  else
    match unitOfOp (cmdOp w), cmdFlag w, cmdNull w with
    | .base16Encoder, false, false => .ok .b16encL
    | .base16Encoder, true, false => .ok .b16encU
    | .base16Encoder, _, true => .error .nullOnEncoder
    | .base16Decoder, false, n => .ok (.b16dec n)
    | .base16Decoder, true, _ => .error .flagOnB16dec
    | .base64urlEncoder, false, false => .ok .b64enc
    | .base64urlEncoder, true, false => .ok .b64encP
    | .base64urlEncoder, _, true => .error .nullOnEncoder
    | .base64urlDecoder, false, n => .ok (.b64dec n)
    | .base64urlDecoder, true, n => .ok (.b64decT n)

/-- The command word with the given fields, reserved bits 0: the pattern `0000nfpp` of R40. -/
def cmdWord (op : BitVec 2) (flag null : Bool) : BitVec 8 :=
  0#4 ++ BitVec.ofBool null ++ BitVec.ofBool flag ++ op

/-- The word of a command (the table of R46). -/
def encode : Instr → BitVec 8
  | .b16encL => cmdWord 0 false false
  | .b16encU => cmdWord 0 true false
  | .b16dec n => cmdWord 1 false n
  | .b64enc => cmdWord 2 false false
  | .b64encP => cmdWord 2 true false
  | .b64dec n => cmdWord 3 false n
  | .b64decT n => cmdWord 3 true n

/-- The three command registers an assembler line stands for: `CMD`, `SRC_LEN`, `DST_CAP` (R50). -/
def Command.assemble (lenBits : Nat) (c : Command) : BitVec 8 × Len lenBits × Len lenBits :=
  (encode c.instr, BitVec.ofNat _ c.srcLen, BitVec.ofNat _ c.dstCap)

/-- The instruction the decoder reads from a word of the opcode table: every word is 8 bits (R48), and bits at and
above `nbits` are 0. -/
def decodeTableWord (nbits w : Nat) : Option Instr :=
  (decode (BitVec.ofNat 8 (w % 2 ^ nbits))).toOption

end Sys2Proof
end

