-- ==== Sys2Proof/Machine/State.lean ====
section
/-! DEFINITION. The state of the block and of its command port, as plain data, and the state after reset (R8, R26). The
constant tables of R8 (a) are definitions of Machine/Tables.lean, since nothing writes them (R16). -/

namespace Sys2Proof.Machine

/-- The failure causes (R79), named as there. Their codes are `Cause.code`. -/
inductive Cause where
  | none
  | nullInput
  | format
  | capacity
  | illegal
  deriving DecidableEq, Repr

/-- The three response registers, written together (R18). -/
structure Resp (lenBits : Nat) where
  /-- `RESP.OK`, 1 bit: `true` is 1 (R19). -/
  ok    : Bool
  /-- `RESP.CAUSE`, 3 bits (R20). -/
  cause : BitVec 3
  /-- `RESP.COUNT`, `LEN_BITS` bits (R21). -/
  count : Len lenBits
  deriving DecidableEq, Repr

/-- The state. -/
structure State where
  /-- `LEN_BITS`, the open parameter: the width of the length and count registers (R7). An argument of the model and not a
  register: nothing writes it (log entry 1). -/
  lenBits   : Nat
  /-- `CMD`, the command word; host-written (R17). -/
  cmd       : BitVec 8
  /-- `SRC_LEN`, the number of source elements; host-written (R17). -/
  srcLen    : Len lenBits
  /-- `DST_CAP`, the destination capacity in elements; host-written (R17). -/
  dstCap    : Len lenBits
  /-- `RESP.OK`, `RESP.CAUSE`, `RESP.COUNT`; block-written (R18). -/
  resp      : Resp lenBits
  /-- A command is in progress: issued, its response not yet written (R26, R93, R96). -/
  busy      : Bool
  /-- The host's reset signal (R112), taken by the next step. -/
  resetLine : Bool
  /-- The byte buffer at the port: `SRC` of an encoder, `DST` of a decoder (R22, R27, R30). Its length is the number of
  elements it really has. -/
  bytes     : List Byte
  /-- The character buffer at the port: `DST` of an encoder, `SRC` of a decoder (R22, R27, R30). -/
  chars     : List Char16
  /-- The model's own: how many free draws have been made (log entry 6). -/
  draws     : Nat
  deriving DecidableEq, Repr

/-- Why the machine stops. Both are host errors that R97 leaves undefined and U7 refuses; a command of a host that
states its lengths truthfully raises neither. -/
inductive Fault where
  /-- Raised by every command that would read `SRC[i]` at an index its source buffer does not have: `SRC_LEN` is larger
  than the buffer (R97, U7). Safe: the spec gives this no behaviour. -/
  | sourceOverrun
  /-- Raised by every command that may write `DST[i]` at an index its destination buffer does not have: `DST_CAP`, and
  with it `REQ`, is larger than the buffer (R97, U7). Safe. -/
  | destinationOverrun
  deriving DecidableEq, Repr

/-- Why an instruction has no meaning. -/
inductive Refusal where
  /-- Raised by an arm of `exec` whose instruction has no meaning yet; none is left. Safe. -/
  | notModelled (mnemonic : String)
  deriving DecidableEq, Repr

/-- What a meaning answers. -/
abbrev Answer := Host.Outcome State Fault Refusal

/-- The response registers after reset: `(0, NONE, 0)` (R26). -/
def Resp.atReset {lenBits : Nat} : Resp lenBits := { ok := false, cause := 0, count := 0 }

/-- The state after reset of a block with the given `LEN_BITS` (R7, R26). `RESP` is the spec's `(0, NONE, 0)` and no command
is in progress; the zeros of `CMD`, `SRC_LEN` and `DST_CAP`, the empty buffers, the low reset line and the counter are
DESIGN CHOICE (log entries 4, 5 and 6). -/
def State.resetAt (lenBits : Nat) : State where
  lenBits := lenBits
  cmd := 0
  srcLen := 0
  dstCap := 0
  resp := Resp.atReset
  busy := false
  resetLine := false
  bytes := []
  chars := []
  draws := 0

/-- The state after reset, with `LEN_BITS` at its default (R7, R26). -/
def State.reset : State := State.resetAt Config.lenBits

end Sys2Proof.Machine
end

