-- ==== Sys2Proof/Machine/Flags.lean ====
section
/-! DEFINITION. The block's flags are its response registers: the codes of the causes and the two forms of a response
(R19 to R21, R76, R77, R79). -/

namespace Sys2Proof.Machine

/-- The code of a cause in `RESP.CAUSE` (R20, R79). -/
def Cause.code : Cause → BitVec 3
  | .none => 0
  | .nullInput => 1
  | .format => 2
  | .capacity => 3
  | .illegal => 4

/-- The response of a command that succeeded with `count` elements (R76). -/
def Resp.success {lenBits : Nat} (count : Nat) : Resp lenBits := { ok := true, cause := Cause.code .none, count := BitVec.ofNat _ count }

/-- The response of a command that failed (R77). -/
def Resp.failure {lenBits : Nat} (c : Cause) : Resp lenBits := { ok := false, cause := c.code, count := 0 }

end Sys2Proof.Machine
end

