-- ==== Sys2Proof/Machine/Tables.lean ====
section
/-! DEFINITION. The constant tables of the block (R9 to R16): the alphabets and the decoding maps. Nothing writes them (log entries 11 and 12). -/

namespace Sys2Proof.Machine

/-- `ENC16L`, the lower-case base16 alphabet (R9, codes R11). -/
def ENC16L : List Char16 :=
  [0x0030, 0x0031, 0x0032, 0x0033, 0x0034, 0x0035, 0x0036, 0x0037] ++
  [0x0038, 0x0039, 0x0061, 0x0062, 0x0063, 0x0064, 0x0065, 0x0066]

/-- `ENC16U`, the upper-case base16 alphabet (R9, codes R11). -/
def ENC16U : List Char16 :=
  [0x0030, 0x0031, 0x0032, 0x0033, 0x0034, 0x0035, 0x0036, 0x0037] ++
  [0x0038, 0x0039, 0x0041, 0x0042, 0x0043, 0x0044, 0x0045, 0x0046]

/-- `ENC64`, the base64url alphabet, in the rows of the table of R12 (R10). -/
def ENC64 : List Char16 :=
  [0x0041, 0x0042, 0x0043, 0x0044, 0x0045, 0x0046, 0x0047, 0x0048] ++
  [0x0049, 0x004A, 0x004B, 0x004C, 0x004D, 0x004E, 0x004F, 0x0050] ++
  [0x0051, 0x0052, 0x0053, 0x0054, 0x0055, 0x0056, 0x0057, 0x0058] ++
  [0x0059, 0x005A, 0x0061, 0x0062, 0x0063, 0x0064, 0x0065, 0x0066] ++
  [0x0067, 0x0068, 0x0069, 0x006A, 0x006B, 0x006C, 0x006D, 0x006E] ++
  [0x006F, 0x0070, 0x0071, 0x0072, 0x0073, 0x0074, 0x0075, 0x0076] ++
  [0x0077, 0x0078, 0x0079, 0x007A, 0x0030, 0x0031, 0x0032, 0x0033] ++
  [0x0034, 0x0035, 0x0036, 0x0037, 0x0038, 0x0039, 0x002D, 0x005F]

/-- `PADCH`, the padding character `=` (R10, code R12). -/
def PADCH : Char16 := 0x003D

/-- `INVALID`, the sentinel of the decoding maps: −1 in 8 bits (R15). -/
def INVALID : BitVec 8 := 0xFF

theorem ENC16L_length : ENC16L.length = 16 := rfl

theorem ENC16U_length : ENC16U.length = 16 := rfl

theorem ENC64_length : ENC64.length = 64 := rfl

/-- Entry `k` of `ENC16L` (R9). -/
def enc16L (k : BitVec 4) : Char16 := ENC16L[k.toNat]'(by rw [ENC16L_length]; exact k.isLt)

/-- Entry `k` of `ENC16U` (R9). -/
def enc16U (k : BitVec 4) : Char16 := ENC16U[k.toNat]'(by rw [ENC16U_length]; exact k.isLt)

/-- Entry `k` of `ENC64` (R10). -/
def enc64 (k : BitVec 6) : Char16 := ENC64[k.toNat]'(by rw [ENC64_length]; exact k.isLt)

/-- Entry `c` of `DEC16` (R13), a signed 8-bit value: 256 entries, one per byte `c`. -/
def dec16 (c : Byte) : BitVec 8 :=
  if 0x30 ≤ c ∧ c ≤ 0x39 then c - 0x30
  else if 0x41 ≤ c ∧ c ≤ 0x46 then c - 0x41 + 10
  else if 0x61 ≤ c ∧ c ≤ 0x66 then c - 0x61 + 10
  else INVALID

/-- Entry `c` of `DEC64` (R14), a signed 8-bit value: 256 entries, one per byte `c`. -/
def dec64 (c : Byte) : BitVec 8 :=
  if 0x41 ≤ c ∧ c ≤ 0x5A then c - 0x41
  else if 0x61 ≤ c ∧ c ≤ 0x7A then c - 0x61 + 26
  else if 0x30 ≤ c ∧ c ≤ 0x39 then c - 0x30 + 52
  else if c = 0x2D then 62
  else if c = 0x5F then 63
  else INVALID

/-- The symbol value in a decoding-map entry, if the entry is valid: it is when it is not negative (R15). -/
def entryValue (e : BitVec 8) : Option Nat := if e.msb then none else some e.toNat

end Sys2Proof.Machine
end

