-- ==== Sys2Proof/Machine/Operands.lean ====
section
/-! DEFINITION. The operands of a command: the required capacities, the count of a base64url encoding, the trimmed
length, and the characters of a source as symbol values. Lengths are natural numbers, never wrapped (R7, R113). -/

namespace Sys2Proof.Machine

/-- `REQ` of `B16ENC.L` and `B16ENC.U` for `n` bytes (R83). -/
def reqB16enc (n : Nat) : Nat := 2 * n

/-- `REQ` of `B16DEC` for `L` characters (R83). -/
def reqB16dec (L : Nat) : Nat := L / 2

/-- `REQ` of `B64ENC` and `B64ENC.P` for `n` bytes, the same for both (R64, R83). -/
def reqB64enc (n : Nat) : Nat := (n + 2) / 3 * 4

/-- `REQ` of `B64DEC` and `B64DEC.T` for `L` characters, `L` the trimmed length of the latter (R83). -/
def reqB64dec (L : Nat) : Nat := L * 3 / 4

/-- The count `B64ENC` (`pad` false) or `B64ENC.P` (`pad` true) writes for `n` bytes (the table of R64). -/
def countB64enc (pad : Bool) (n : Nat) : Nat :=
  if n % 3 = 0 then 4 * (n / 3)
  else if pad then 4 * (n / 3) + 4
  else if n % 3 = 1 then 4 * (n / 3) + 2
  else 4 * (n / 3) + 3

/-- `TRIMLEN(SRC, L)`: `L` less the `=` characters at the end of the first `L` elements (R70). -/
def trimLen (src : List Char16) : Nat → Nat
  | 0 => 0
  | L + 1 => if src[L]? = some PADCH then trimLen src L else L + 1

/-- `NIB(c)`: the base16 symbol value of a character. The high byte is tested first (R57). -/
def nib (c : Char16) : Option Nat := if c.high ≠ 0 then none else entryValue (dec16 c.low)

/-- `SYM(c)`: the base64url symbol value of a character. The high byte is tested first (R68). -/
def sym (c : Char16) : Option Nat := if c.high ≠ 0 then none else entryValue (dec64 c.low)

end Sys2Proof.Machine
end

