-- ==== Sys2Proof/Machine/Ops.lean ====
section
/-! DEFINITION. The shared operations: how a command ends, the destination writes, the unspecified destination, the
access check, the fetch of the command word, and reset. -/

namespace Sys2Proof.Machine

/-- The command word of the command in progress: the block fetches nothing, it is given `CMD` (R17, R24). -/
def State.fetch (s : State) : BitVec 8 := s.cmd

/-- Write the three response registers together; with the response the command is over (R18, R36). -/
def State.respond (s : State) (r : Resp s.lenBits) : State := { s with resp := r, busy := false }

/-- `complete(count)`: success (R76). -/
def State.complete (count : Nat) (s : State) : State := s.respond (Resp.success count)

/-- `raise <Cause>`: the block's exception (R77). It transfers no control and saves nothing, and there is no return from
it: the block is ready for the next command (R89). -/
def State.raise (c : Cause) (s : State) : State := s.respond (Resp.failure c)

/-- A buffer after its first elements have been written with `out`: every other element keeps its value (R29). -/
def putPrefix {α : Type} (out buf : List α) : List α := out ++ buf.drop out.length

/-- `DST[0 ..] <- out` for a character destination (R29, R30). -/
def State.writeChars (out : List Char16) (s : State) : State := { s with chars := putPrefix out s.chars }

/-- `DST[0 ..] <- out` for a byte destination (R29, R30). -/
def State.writeBytes (out : List Byte) (s : State) : State := { s with bytes := putPrefix out s.bytes }

/-- A buffer whose elements below `n` are unspecified: each is a free value; every other element keeps its value. -/
def spoilPrefix {α : Type} (free : Nat → α) (n : Nat) (buf : List α) : List α :=
  putPrefix ((List.range (min n buf.length)).map free) buf

/-- `DST[0 .. n−1]` of a byte destination becomes unspecified (R86, R94): a fresh draw for each element. -/
def State.spoilBytes (n : Nat) (s : State) : State :=
  { s with bytes := spoilPrefix (Config.freeByte s.draws) n s.bytes, draws := s.draws + 1 }

/-- `DST[0 .. n−1]` of a character destination becomes unspecified (R94). -/
def State.spoilChars (n : Nat) (s : State) : State :=
  { s with chars := spoilPrefix (Config.freeChar s.draws) n s.chars, draws := s.draws + 1 }

/-- Go on only if the buffers really have the elements the command touches: `srcNeed` of the source and `dstNeed` of the
destination. The block itself checks nothing (R97); an access outside a buffer stops the machine (U7). -/
def accessing (srcSize srcNeed dstSize dstNeed : Nat) (k : Answer) : Answer :=
  if srcSize < srcNeed then .fault .sourceOverrun
  else if dstSize < dstNeed then .fault .destinationOverrun
  else k

/-- An encoder command (R54, R65): the capacity check, then the text of the source bytes at the front of the character
destination. -/
def encodeCommand (req count : Nat) (text : List Byte → List Char16) (s : State) : Answer :=
  if s.dstCap.toNat < req then .next (s.raise .capacity)
  else
    accessing s.bytes.length s.srcLen.toNat s.chars.length req
      (.next ((s.writeChars (text (s.bytes.take s.srcLen.toNat))).complete count))

/-- A decoder's pass over its first `L` source characters (R58, R71): the capacity check, then the bytes at the front of
the destination, or a format failure that leaves `DST[0 .. REQ−1]` unspecified (R86). -/
def decodePass (L req : Nat) (value : List Char16 → Option (List Byte)) (s : State) : Answer :=
  if s.dstCap.toNat < req then .next (s.raise .capacity)
  else
    accessing s.chars.length L s.bytes.length req
      (match value (s.chars.take L) with
       | some out => .next ((s.writeBytes out).complete req)
       | none => .next ((s.spoilBytes req).raise .format))

/-- The destination of an abandoned command becomes unspecified (R94). Bit 0 of `OP` says which buffer that is (R41,
R30; DEDUCED for an illegal word, log entry 7). -/
def State.abandon (s : State) : State :=
  if (cmdOp s.cmd).getLsbD 0 then s.spoilBytes s.dstCap.toNat else s.spoilChars s.dstCap.toNat

/-- Reset (R26, R94): a command in progress is abandoned, `RESP` takes its reset value, and the command registers hold
whatever the host drives until it writes them. The buffers are the host's and are not written otherwise. -/
def State.takeReset (s : State) : State :=
  let t := if s.busy then s.abandon else s
  { t with
    cmd := Config.freeCmd t.draws
    srcLen := Config.freeSrcLen t.lenBits t.draws
    dstCap := Config.freeDstCap t.lenBits t.draws
    resp := Resp.atReset
    busy := false
    resetLine := false
    draws := t.draws + 1 }

end Sys2Proof.Machine
end

