-- ==== Sys2Proof/Machine/Base16.lean ====
section
/-! DEFINITION. The base16 commands: B16ENC.L, B16ENC.U (40_base16_encoder.md) and B16DEC (41_base16_decoder.md). -/

namespace Sys2Proof.Machine

/-- `HEX(u, k)`: the character of a nibble, upper case when `u` (R52). -/
def hex (u : Bool) (k : BitVec 4) : Char16 := if u then enc16U k else enc16L k

/-- The two characters of a byte, high nibble first (R54). -/
def hexPair (u : Bool) (b : Byte) : List Char16 := [hex u (b.extractLsb' 4 4), hex u (b.extractLsb' 0 4)]

/-- The text of a byte sequence (the loop of R54). -/
def hexText (u : Bool) : List Byte → List Char16
  | [] => []
  | b :: rest => hexPair u b ++ hexText u rest

/-- `PAIR` on the two nibbles (R57). -/
def pairByte (hi lo : Nat) : Byte := trunc8 (hi <<< 4 ||| lo)

/-- The bytes of a text, or none if a character has no nibble (the loop of R58). A single character left over has no
byte; `B16DEC` tests for an odd length before its loop. -/
def hexValue : List Char16 → Option (List Byte)
  | [] => some []
  | [_] => none
  | c0 :: c1 :: rest =>
    match nib c0, nib c1, hexValue rest with
    | some hi, some lo, some out => some (pairByte hi lo :: out)
    | _, _, _ => none

/-- `B16ENC.L` (R54). -/
def execB16encL (s : State) : Answer :=
  encodeCommand (reqB16enc s.srcLen.toNat) (reqB16enc s.srcLen.toNat) (hexText false) s

/-- `B16ENC.U` (R55). -/
def execB16encU (s : State) : Answer :=
  encodeCommand (reqB16enc s.srcLen.toNat) (reqB16enc s.srcLen.toNat) (hexText true) s

/-- `B16DEC` (R58): null, odd length, capacity, characters, in this order (R85). -/
def execB16dec (null : Bool) (s : State) : Answer :=
  if null then .next (s.raise .nullInput)
  else if s.srcLen.toNat % 2 = 1 then .next (s.raise .format)
  else decodePass s.srcLen.toNat (reqB16dec s.srcLen.toNat) hexValue s

end Sys2Proof.Machine
end

