-- ==== Sys2Proof/Machine/Base64url.lean ====
section
/-! DEFINITION. The base64url commands: B64ENC, B64ENC.P (42_base64url_encoder.md), B64DEC and B64DEC.T
(43_base64url_decoder.md). -/

namespace Sys2Proof.Machine

/-- `CHUNK3(b0, b1, b2)` (R61). -/
def chunk3 (b0 b1 b2 : Byte) : List Char16 :=
  [enc64 (b0.extractLsb' 2 6),
   enc64 (b0.extractLsb' 0 2 ++ b1.extractLsb' 4 4),
   enc64 (b1.extractLsb' 0 4 ++ b2.extractLsb' 6 2),
   enc64 (b2.extractLsb' 0 6)]

/-- `TAIL1(b0)` (R62). -/
def tail1 (b0 : Byte) : List Char16 :=
  [enc64 (b0.extractLsb' 2 6), enc64 (b0.extractLsb' 0 2 ++ 0#4)]

/-- `TAIL2(b0, b1)` (R63). -/
def tail2 (b0 b1 : Byte) : List Char16 :=
  [enc64 (b0.extractLsb' 2 6), enc64 (b0.extractLsb' 0 2 ++ b1.extractLsb' 4 4), enc64 (b1.extractLsb' 0 4 ++ 0#2)]

/-- The text of a byte sequence, with padding when `pad` (the pseudocode of R65 and R66). -/
def b64Text (pad : Bool) : List Byte → List Char16
  | [] => []
  | [b0] => tail1 b0 ++ if pad then [PADCH, PADCH] else []
  | [b0, b1] => tail2 b0 b1 ++ if pad then [PADCH] else []
  | b0 :: b1 :: b2 :: rest => chunk3 b0 b1 b2 ++ b64Text pad rest

/-- `GROUP2(s0, s1)` (R69). -/
def group2 (s0 s1 : Nat) : List Byte := [trunc8 (s0 <<< 2 ||| s1 >>> 4)]

/-- `GROUP3(s0, s1, s2)` (R69). -/
def group3 (s0 s1 s2 : Nat) : List Byte := [trunc8 (s0 <<< 2 ||| s1 >>> 4), trunc8 (s1 <<< 4 ||| s2 >>> 2)]

/-- `GROUP4(s0, s1, s2, s3)` (R69). -/
def group4 (s0 s1 s2 s3 : Nat) : List Byte :=
  [trunc8 (s0 <<< 2 ||| s1 >>> 4), trunc8 (s1 <<< 4 ||| s2 >>> 2), trunc8 (s2 <<< 6 ||| s3)]

/-- The bytes of a text, or none if it is no valid text: one character alone at the end, or a character without a
symbol value (the pseudocode of R71 after the capacity check). -/
def b64Value : List Char16 → Option (List Byte)
  | [] => some []
  | [_] => none
  | [c0, c1] =>
    match sym c0, sym c1 with
    | some s0, some s1 => some (group2 s0 s1)
    | _, _ => none
  | [c0, c1, c2] =>
    match sym c0, sym c1, sym c2 with
    | some s0, some s1, some s2 => some (group3 s0 s1 s2)
    | _, _, _ => none
  | c0 :: c1 :: c2 :: c3 :: rest =>
    match sym c0, sym c1, sym c2, sym c3, b64Value rest with
    | some s0, some s1, some s2, some s3, some out => some (group4 s0 s1 s2 s3 ++ out)
    | _, _, _, _, _ => none

/-- `B64ENC` (R65). -/
def execB64enc (s : State) : Answer :=
  encodeCommand (reqB64enc s.srcLen.toNat) (countB64enc false s.srcLen.toNat) (b64Text false) s

/-- `B64ENC.P` (R66). -/
def execB64encP (s : State) : Answer :=
  encodeCommand (reqB64enc s.srcLen.toNat) (countB64enc true s.srcLen.toNat) (b64Text true) s

/-- `B64DEC` (R71): null, capacity, format, in this order (R85). -/
def execB64dec (null : Bool) (s : State) : Answer :=
  if null then .next (s.raise .nullInput)
  else decodePass s.srcLen.toNat (reqB64dec s.srcLen.toNat) b64Value s

/-- `B64DEC.T` (R72): null, then the trim, which reads the source; then as `B64DEC` with the trimmed length. -/
def execB64decT (null : Bool) (s : State) : Answer :=
  if null then .next (s.raise .nullInput)
  else if s.chars.length < s.srcLen.toNat then .fault .sourceOverrun
  else
    decodePass (trimLen s.chars s.srcLen.toNat) (reqB64dec (trimLen s.chars s.srcLen.toNat)) b64Value s

end Sys2Proof.Machine
end

