-- ==== Sys2Proof/Machine/Dispatch.lean ====
section
/-! DEFINITION. The dispatch: one arm per command (R46, R114). -/

namespace Sys2Proof.Machine

def exec (i : Instr) (s : State) : Host.Outcome State Fault Refusal :=
  match i with
  | .b16encL => Sys2Proof.Machine.execB16encL s
  | .b16encU => Sys2Proof.Machine.execB16encU s
  | .b16dec null => Sys2Proof.Machine.execB16dec null s
  | .b64enc => Sys2Proof.Machine.execB64enc s
  | .b64encP => Sys2Proof.Machine.execB64encP s
  | .b64dec null => Sys2Proof.Machine.execB64dec null s
  | .b64decT null => Sys2Proof.Machine.execB64decT null s

end Sys2Proof.Machine
end

