-- ==== Sys2Proof/Machine/Step.lean ====
section
/-! DEFINITION. One step of the block (R2, R24, R36, R49, R94). -/

namespace Sys2Proof.Machine

/-- One step: a reset if the host signals one (before a command in progress: log entry 13); else the whole of the command
in progress, an illegal word failing with `ILLEGAL` (R47, R84); else the block waits and keeps all state (R93; log entry
14). -/
def step (s : State) : Host.Outcome State Fault Refusal :=
  if s.resetLine then .next s.takeReset
  else if s.busy then
    match decode s.fetch with
    | .ok i => exec i s
    | .error _ => .next (s.raise .illegal)
  else .next s

/-- `s` with a command word issued at the port, so that the next step runs it: `CMD` written, the command in progress
and no reset signalled (R17, R96; log entry 3). -/
def State.withFetchWord (s : State) (nbits w : Nat) : State :=
  { s with cmd := BitVec.ofNat 8 (w % 2 ^ nbits), busy := true, resetLine := false }

end Sys2Proof.Machine
end

