-- ==== Sys2Proof/Machine/HostPort.lean ====
section
/-! DEFINITION. What the host may do to the block between its steps (R17, R22, R96 to R98, R112). A move the host has no
right to is no move: `none` (U7, U8; log entry 17). -/

namespace Sys2Proof.Machine

/-- The moves of the host (the table of R112). -/
inductive HostAction where
  /-- Present a byte buffer: `SRC` of an encoder, `DST` of a decoder. -/
  | presentBytes (buf : List Byte)
  /-- Present a character buffer: `DST` of an encoder, `SRC` of a decoder. -/
  | presentChars (buf : List Char16)
  /-- Write `CMD`; every value is allowed. -/
  | writeCmd (w : BitVec 8)
  /-- Write `SRC_LEN`; every value the register can hold is allowed. -/
  | writeSrcLen (n : Nat)
  /-- Write `DST_CAP`; every value the register can hold is allowed. -/
  | writeDstCap (n : Nat)
  /-- Issue the command that the command registers hold. -/
  | issue
  /-- Signal a reset, at any time. -/
  | reset
  deriving DecidableEq, Repr

/-- The number of elements the source buffer of a command really has (R30). -/
def State.srcSize (i : Instr) (s : State) : Nat := if i.isDecoder then s.chars.length else s.bytes.length

/-- The number of elements the destination buffer of a command really has (R30). -/
def State.dstSize (i : Instr) (s : State) : Nat := if i.isDecoder then s.bytes.length else s.chars.length

/-- The operands are truthful for a command: the source has `SRC_LEN` elements, unless the input is absent, and the
destination has `DST_CAP` (R97). -/
def State.truthfulFor (i : Instr) (s : State) : Bool :=
  (i.null || decide (s.srcLen.toNat ≤ s.srcSize i)) && decide (s.dstCap.toNat ≤ s.dstSize i)

/-- The operands of the command in `CMD` are truthful (R97); an illegal word touches no buffer (R47). -/
def State.truthful (s : State) : Bool :=
  match decode s.cmd with
  | .ok i => s.truthfulFor i
  | .error _ => true

/-- The state after a move of the host, if it has that move. While a command is in progress it may only reset (R96, R98);
it issues only truthful operands (R97); a length that a register cannot hold is not written (R7, U10). A reset it has
signalled and that no step has taken yet takes no move away: the host may still write a register, present a buffer and
issue, and the step that takes the reset then abandons what was issued (DESIGN CHOICE: R96 and R112 do not say; log entry
19). -/
def State.host (a : HostAction) (s : State) : Option State :=
  match a with
  | .presentBytes buf => if s.busy then none else some { s with bytes := buf }
  | .presentChars buf => if s.busy then none else some { s with chars := buf }
  | .writeCmd w => if s.busy then none else some { s with cmd := w }
  | .writeSrcLen n => if s.busy || decide (2 ^ s.lenBits ≤ n) then none else some { s with srcLen := BitVec.ofNat _ n }
  | .writeDstCap n => if s.busy || decide (2 ^ s.lenBits ≤ n) then none else some { s with dstCap := BitVec.ofNat _ n }
  | .issue => if s.busy || !s.truthful then none else some { s with busy := true }
  | .reset => some { s with resetLine := true }

end Sys2Proof.Machine
end

