-- ==== Sys2Proof/Machine/HostOperations.lean ====
section
/-! DEFINITION. The public operations of the source mapped onto commands (44_host_operations.md): each is one command
with what the host does before and after it (R103). `none` says that the host has no such move: the block is busy or in
reset, or a length does not fit in LEN_BITS bits (U8, U10; log entry 16). -/

namespace Sys2Proof.Machine

/-- Issue one command with the given buffers and take its response: the state of the block afterwards (R103 (1) and (2)).
The host starts an operation only with no command in progress (R96), and only when no reset it has signalled is still to
be taken, since that would abandon the command (DESIGN CHOICE, log entry 19). -/
def State.perform (c : Command) (bytes : List Byte) (chars : List Char16) (s : State) : Option State :=
  if s.busy || s.resetLine || !c.wellFormed s.lenBits then none
  else
    let t : State :=
      { s with
        cmd := (c.assemble s.lenBits).1
        srcLen := (c.assemble s.lenBits).2.1
        dstCap := (c.assemble s.lenBits).2.2
        bytes := bytes
        chars := chars }
    match t.host .issue with
    | none => none
    | some u =>
      match step u with
      | .next v => some v
      | .fault _ => none
      | .refused _ => none

/-- `(RESP.OK, RESP.COUNT)`: what a Try form over a caller's buffer returns (R105, R106, R109, R110). -/
def State.okCount (s : State) : Bool × Nat := (s.resp.ok, s.resp.count.toNat)

/-- `DST[0 .. RESP.COUNT−1]` of a decoder on success, else absent (R103 (4)). -/
def State.decoded (s : State) : Option (List Byte) :=
  if s.resp.ok then some (s.bytes.take s.resp.count.toNat) else none

/-- `DST[0 .. RESP.COUNT−1]` of an encoder on success, else absent (R103 (4)). -/
def State.encoded (s : State) : Option (List Char16) :=
  if s.resp.ok then some (s.chars.take s.resp.count.toNat) else none

/-- A destination the host provides for `n` elements. What it holds before the command is the host's; zeros here, and no
result reads them (R103; log entry 10). -/
def freshBytes (n : Nat) : List Byte := List.replicate n 0

/-- As `freshBytes`, for characters. -/
def freshChars (n : Nat) : List Char16 := List.replicate n 0

/-- The base16 encoding command in lower or upper case (R104). -/
def b16encInstr (toUpper : Bool) : Instr := if toUpper then .b16encU else .b16encL

/-- `base16_encode(bytes, to_upper)` (R104). -/
def base16Encode (bytes : List Byte) (toUpper : Bool) (s : State) : Option (Option (List Char16)) :=
  let req := reqB16enc bytes.length
  (s.perform { instr := b16encInstr toUpper, srcLen := bytes.length, dstCap := req } bytes
    (freshChars req)).map State.encoded

/-- `base16_try_encode(bytes, dest)`, lower case (R105): the result and the destination afterwards. -/
def base16TryEncode (bytes : List Byte) (dest : List Char16) (s : State) : Option ((Bool × Nat) × List Char16) :=
  (s.perform { instr := .b16encL, srcLen := bytes.length, dstCap := dest.length } bytes dest).map
    fun t => (t.okCount, t.chars)

/-- The characters of an input that may be absent, and its length as `SRC_LEN` has it (R50). -/
def inputChars (input : Option (List Char16)) : List Char16 := input.getD []

/-- Base16 `TryDecode(input, destBytes)` (R106): the result and the destination afterwards. -/
def base16TryDecodeInto (input : Option (List Char16)) (dest : List Byte) (s : State) :
    Option ((Bool × Nat) × List Byte) :=
  (s.perform { instr := .b16dec input.isNone, srcLen := (inputChars input).length, dstCap := dest.length } dest
    (inputChars input)).map fun t => (t.okCount, t.bytes)

/-- The block after the one command of `base16_try_decode` and `base16_decode`: `B16DEC` with a destination of
`L div 2` bytes (R107, R111). -/
def base16DecodeCommand (input : Option (List Char16)) (s : State) : Option State :=
  let req := reqB16dec (inputChars input).length
  s.perform { instr := .b16dec input.isNone, srcLen := (inputChars input).length, dstCap := req } (freshBytes req)
    (inputChars input)

/-- `base16_try_decode(input)` (R107): the bytes, or absent. -/
def base16TryDecode (input : Option (List Char16)) (s : State) : Option (Option (List Byte)) :=
  (base16DecodeCommand input s).map State.decoded

/-- The base64url encoding command with or without padding (R108, R109). -/
def b64encInstr (padding : Bool) : Instr := if padding then .b64encP else .b64enc

/-- `base64url_encode(bytes, padding)` (R108). -/
def base64urlEncode (bytes : List Byte) (padding : Bool) (s : State) : Option (Option (List Char16)) :=
  let req := reqB64enc bytes.length
  (s.perform { instr := b64encInstr padding, srcLen := bytes.length, dstCap := req } bytes (freshChars req)).map
    State.encoded

/-- `base64url_try_encode(bytes, dest, padding)` (R109): the result and the destination afterwards. -/
def base64urlTryEncode (bytes : List Byte) (dest : List Char16) (padding : Bool) (s : State) :
    Option ((Bool × Nat) × List Char16) :=
  (s.perform { instr := b64encInstr padding, srcLen := bytes.length, dstCap := dest.length } bytes dest).map
    fun t => (t.okCount, t.chars)

/-- Base64url `TryDecode(input, destBytes)`, the string overload, which trims (R110 (a)). -/
def base64urlTryDecodeInto (input : Option (List Char16)) (dest : List Byte) (s : State) :
    Option ((Bool × Nat) × List Byte) :=
  (s.perform { instr := .b64decT input.isNone, srcLen := (inputChars input).length, dstCap := dest.length } dest
    (inputChars input)).map fun t => (t.okCount, t.bytes)

/-- Base64url `TryDecode(chars, destBytes)`, the buffer overload, which does not trim (R110 (b)). -/
def base64urlTryDecodeChars (chars : List Char16) (dest : List Byte) (s : State) : Option ((Bool × Nat) × List Byte) :=
  (s.perform { instr := .b64dec false, srcLen := chars.length, dstCap := dest.length } dest chars).map
    fun t => (t.okCount, t.bytes)

/-- The block after the one command of `base64url_try_decode` and `base64url_decode`: `B64DEC.T` with a destination of
`(L × 3) div 4` bytes (R110 (c), R111). -/
def base64urlDecodeCommand (input : Option (List Char16)) (s : State) : Option State :=
  let req := reqB64dec (inputChars input).length
  s.perform { instr := .b64decT input.isNone, srcLen := (inputChars input).length, dstCap := req } (freshBytes req)
    (inputChars input)

/-- `base64url_try_decode(input)` (R110 (c)): the bytes, or absent. -/
def base64urlTryDecode (input : Option (List Char16)) (s : State) : Option (Option (List Byte)) :=
  (base64urlDecodeCommand input s).map State.decoded

/-- The errors the raising forms raise (R90, R111). -/
inductive HostError where
  | nullInputError
  | formatError
  deriving DecidableEq, Repr

/-- What a raising form does with a response: cause `NULL_INPUT` is `NullInputError`, every other failure is
`FormatError`, and a success returns the bytes (R90, R111). -/
def State.raising (s : State) : HostError ⊕ List Byte :=
  if s.resp.ok then .inr (s.bytes.take s.resp.count.toNat)
  else if s.resp.cause = Cause.code .nullInput then .inl .nullInputError
  else .inl .formatError

/-- `base16_decode(input)` (R111). -/
def base16Decode (input : Option (List Char16)) (s : State) : Option (HostError ⊕ List Byte) :=
  (base16DecodeCommand input s).map State.raising

/-- `base64url_decode(input)` (R111). -/
def base64urlDecode (input : Option (List Char16)) (s : State) : Option (HostError ⊕ List Byte) :=
  (base64urlDecodeCommand input s).map State.raising

end Sys2Proof.Machine
end

