-- ==== Sys2Proof/Machine/Instances.lean ====
section
/-! DEFINITION. Several instances of the block (R92): each has its own registers and its own buffers, and they share only
the constant tables. Buffers of two instances cannot overlap here (R98, U9; log entry 15). -/

namespace Sys2Proof.Machine

/-- The blocks of a platform, by number. -/
structure System where
  instances : List State
  deriving DecidableEq, Repr

/-- A platform of `count` blocks after reset, each with the given `LEN_BITS` (R92, R26, R7). -/
def System.resetAt (count lenBits : Nat) : System := { instances := List.replicate count (State.resetAt lenBits) }

/-- The platform after reset with `N_INSTANCES` and `LEN_BITS` at their defaults (R92, R26). -/
def System.reset : System := System.resetAt Config.nInstances Config.lenBits

/-- One step of instance `k`, or a stop of that instance; with no such instance nothing moves (log entry 2). -/
def System.stepAt (k : Nat) (S : System) : Host.Outcome System Fault Refusal :=
  match S.instances[k]? with
  | none => .next S
  | some s =>
    match step s with
    | .next t => .next { S with instances := S.instances.set k t }
    | .fault r => .fault r
    | .refused r => .refused r

/-- The platform after a move of the host of instance `k` there, if it has that move (R92, R112). -/
def System.hostAt (k : Nat) (a : HostAction) (S : System) : Option System :=
  match S.instances[k]? with
  | none => none
  | some s => (s.host a).map fun t => { S with instances := S.instances.set k t }

end Sys2Proof.Machine
end

