-- ==== Sys2Proof/Safety.lean ====
section
/-! DEFINITION. What a safe run is: the invariant of the block, the states a truthful host can bring it to, and a step
that goes on. -/

namespace Sys2Proof.Safety

open Sys2Proof.Machine

/-- The response registers hold the reset value, a success, or a failure with one of the four failure codes and no count
(R20, R21, R76, R77, R80). -/
abbrev RespLegal {lenBits : Nat} (r : Resp lenBits) : Prop :=
  (r.ok = false ∧ r.cause = 0 ∧ r.count = 0) ∨
  (r.ok = true ∧ r.cause = 0) ∨
  (r.ok = false ∧ r.count = 0 ∧ (r.cause = 1 ∨ r.cause = 2 ∨ r.cause = 3 ∨ r.cause = 4))

/-- The invariant: legal response registers, and a command in progress has truthful operands (R97). -/
abbrev Inv (s : State) : Prop := RespLegal s.resp ∧ (s.busy = true → s.truthful = true)

/-- The states that steps and moves of the host lead to from reset (R112), for every
`LEN_BITS` (R7). -/
inductive Reachable : State → Prop where
  | reset (lenBits : Nat) : Reachable (State.resetAt lenBits)
  | step {s t : State} (h : Reachable s) (e : step s = .next t) : Reachable t
  | host {s t : State} (a : HostAction) (h : Reachable s) (e : s.host a = some t) : Reachable t

/-- The step goes on: no fault and no refusal. -/
def Goes (s : State) : Prop := ∃ t, step s = .next t

end Sys2Proof.Safety
end

