-- ==== Sys2Proof/Certificates/Slice0/Obligations.lean ====
section
/-! DEFINITION. The statements about the model, each from the rules of spec/ that its docstring names. -/

namespace Sys2Proof.Certificates

open Sys2Proof.Machine

/-- The state after a failure that writes nothing: `RESP` is `(0, code, 0)`, the command is over, all else is kept. -/
def failed (code : BitVec 3) (s : State) : State :=
  { s with resp := { ok := false, cause := code, count := 0 }, busy := false }

/-- The frame of every command: the command registers, their width and the reset line are kept. -/
def SameOperands (s t : State) : Prop :=
  t.lenBits = s.lenBits ∧ t.cmd = s.cmd ∧ t.srcLen.toNat = s.srcLen.toNat ∧ t.dstCap.toNat = s.dstCap.toNat ∧
  t.resetLine = s.resetLine

/-- Two states hold one response: the same three values. -/
def SameResponse (t t' : State) : Prop :=
  t'.resp.ok = t.resp.ok ∧ t'.resp.cause = t.resp.cause ∧ t'.resp.count.toNat = t.resp.count.toNat

/-- The response `(ok, cause, count)` is written, the command is over, and the operands are kept. -/
def Ends (ok : Bool) (cause : BitVec 3) (count : Nat) (s t : State) : Prop :=
  t.resp.ok = ok ∧ t.resp.cause = cause ∧ t.resp.count.toNat = count ∧ t.busy = false ∧ SameOperands s t

/-- The character buffer keeps its size and every element from index `n` on. -/
def CharsKeptFrom (n : Nat) (s t : State) : Prop :=
  t.chars.length = s.chars.length ∧ ∀ j : Nat, n ≤ j → t.chars[j]? = s.chars[j]?

/-- The byte buffer keeps its size and every element from index `n` on. -/
def BytesKeptFrom (n : Nat) (s t : State) : Prop :=
  t.bytes.length = s.bytes.length ∧ ∀ j : Nat, n ≤ j → t.bytes[j]? = s.bytes[j]?

/-- The ten legal words and what each selects: the table of R46. -/
def legalWords : List (BitVec 8 × Instr) :=
  [(0x00, .b16encL), (0x04, .b16encU), (0x01, .b16dec false), (0x09, .b16dec true), (0x02, .b64enc),
   (0x06, .b64encP), (0x03, .b64dec false), (0x0B, .b64dec true), (0x07, .b64decT false), (0x0F, .b64decT true)]

/-- Six bits of the first `n` bytes, read as one string of bits with zeros after it: bits `6j` to `6j + 5` (R61 to R63:
the indices are consecutive 6-bit fields of `b0 ‖ b1 ‖ b2`, and the missing bits are 0). -/
def sextetAt (bytes : List Byte) (n j : Nat) : Nat :=
  let byteAt := fun i : Nat => if i < n then (bytes[i]?.getD 0).toNat else 0
  (byteAt (6 * j / 8) * 256 + byteAt (6 * j / 8 + 1)) / 2 ^ (10 - 6 * j % 8) % 64

/-- Eight bits of a string of symbol values: bits `8m` to `8m + 7` (R69: `s0[5:0] ‖ s1[5:4]`, `s1[3:0] ‖ s2[5:2]`,
`s2[1:0] ‖ s3[5:0]`). -/
def octetAt (v : Nat → Nat) (m : Nat) : Byte :=
  BitVec.ofNat 8 ((v (8 * m / 6) * 64 + v (8 * m / 6 + 1)) / 2 ^ (4 - 8 * m % 6))

/-- `L` is the length of `src` up to `n` less its trailing `=` (R70). -/
def IsTrimmed (src : List Char16) (n L : Nat) : Prop :=
  L ≤ n ∧ (L = 0 ∨ src[L - 1]? ≠ some 0x003D) ∧ ∀ i : Nat, L ≤ i → i < n → src[i]? = some 0x003D

/-- `B64DEC.T` when `trim`, else `B64DEC`. -/
def b64decOf (trim null : Bool) : Instr := if trim then .b64decT null else .b64dec null

/-- The length a base64url decoder works with: trimmed for `B64DEC.T`, `SRC_LEN` for `B64DEC` (R71, R72). -/
def IsTextLength (trim : Bool) (s : State) (L : Nat) : Prop :=
  if trim then IsTrimmed s.chars s.srcLen.toNat L else L = s.srcLen.toNat

/-- `REQ` of a command (R83). -/
def reqOf (i : Instr) (s : State) : Nat :=
  match i with
  | .b16encL | .b16encU => 2 * s.srcLen.toNat
  | .b16dec _ => s.srcLen.toNat / 2
  | .b64enc | .b64encP => (s.srcLen.toNat + 2) / 3 * 4
  | .b64dec _ => s.srcLen.toNat * 3 / 4
  | .b64decT _ => trimLen s.chars s.srcLen.toNat * 3 / 4

/-- The first cause that applies, in the order of R85, with the conditions of R82 and R83; 0 when none does. -/
def firstCause (i : Instr) (s : State) : BitVec 3 :=
  let n := s.srcLen.toNat
  let short := s.dstCap.toNat < reqOf i s
  let L := trimLen s.chars n
  match i with
  | .b16encL | .b16encU | .b64enc | .b64encP => if short then 3 else 0
  | .b16dec null =>
    if null then 1 else if n % 2 = 1 then 2 else if short then 3
    else if (s.chars.take n).all (fun c => (nib c).isSome) then 0 else 2
  | .b64dec null =>
    if null then 1 else if short then 3
    else if n % 4 = 1 then 2 else if (s.chars.take n).all (fun c => (sym c).isSome) then 0 else 2
  | .b64decT null =>
    if null then 1 else if short then 3
    else if L % 4 = 1 then 2 else if (s.chars.take L).all (fun c => (sym c).isSome) then 0 else 2

/-- Two states present a command with the same operands: equal lengths, equal source elements below `SRC_LEN`, which
both sources have, and destinations of one size. Nothing else need agree, not even the width of the registers. -/
def SameCommand (i : Instr) (s s' : State) : Prop :=
  s'.srcLen.toNat = s.srcLen.toNat ∧ s'.dstCap.toNat = s.dstCap.toNat ∧ s.srcLen.toNat ≤ s.srcSize i ∧ s.srcLen.toNat ≤ s'.srcSize i ∧
  s'.dstSize i = s.dstSize i ∧
  (if i.isDecoder then s'.chars.take s.srcLen.toNat = s.chars.take s.srcLen.toNat
   else s'.bytes.take s.srcLen.toNat = s.bytes.take s.srcLen.toNat)

/-- One hex letter in its two cases, or one and the same character (R59). -/
def CaseVariant (c c' : Char16) : Prop :=
  c' = c ∨ ∃ j : Nat, j < 6 ∧
    ((c = BitVec.ofNat 16 (0x61 + j) ∧ c' = BitVec.ofNat 16 (0x41 + j)) ∨
     (c = BitVec.ofNat 16 (0x41 + j) ∧ c' = BitVec.ofNat 16 (0x61 + j)))

/-- A block that is waiting and not being reset, so that the host may issue a command (R96). -/
def Idle (s : State) : Prop := s.busy = false ∧ s.resetLine = false

/-- Between two states of a platform, instance `k` has become `t` and every other instance is as before. -/
def OnlyInstance (k : Nat) (t : State) (S S' : System) : Prop :=
  S'.instances[k]? = some t ∧ ∀ j : Nat, j ≠ k → S'.instances[j]? = S.instances[j]?

end Sys2Proof.Certificates

open Sys2Proof Sys2Proof.Machine Sys2Proof.Certificates Sys2Proof.Safety

/-- R24, R36, R49: with no reset signalled, a step of a command in progress whose word is legal is that command, whole;
the block has no program counter to move. -/
def Obligations.StepRunsTheDecodedCommand : Prop :=
  ∀ (s : State) (i : Instr), s.resetLine = false → s.busy = true → decode s.cmd = .ok i → step s = exec i s

/-- R93: a block that is neither executing nor being reset waits, and waiting keeps all state. -/
def Obligations.WaitingKeepsAllState : Prop :=
  ∀ s : State, Idle s → step s = .next s

/-- R47, R84: every word that is not one of the ten completes with `(0, ILLEGAL, 0)`, whatever the buffers hold, and
nothing else changes. -/
def Obligations.IllegalWordAnswersIllegal : Prop :=
  ∀ s : State, s.resetLine = false → s.busy = true → s.cmd ∉ legalWords.map Prod.fst →
    step s = .next (failed 4 s)

/-- R46, R49: of the 256 words exactly the ten of the table select a command, each the command the table gives. -/
def Obligations.ExactlyTenWordsAreLegal : Prop :=
  ∀ (w : BitVec 8) (i : Instr), decode w = .ok i ↔ (w, i) ∈ legalWords

/-- R46: the decoder inverts the encoder at every instruction and every value of its `NULL` bit, and the encoder inverts
the decoder at every legal word. -/
def Obligations.DecodeInvertsEncode : Prop :=
  ∀ (i : Instr) (w : BitVec 8), decode (encode i) = .ok i ∧ (decode w = .ok i → encode i = w)

/-- R26, R7: after reset `RESP` is `(0, NONE, 0)` and no command is in progress, for every `LEN_BITS`; `State.reset` is the
state after reset with `LEN_BITS` at its default of 32. -/
def Obligations.ResetStateHasNoResponse : Prop :=
  (∀ lenBits : Nat,
    (State.resetAt lenBits).lenBits = lenBits ∧ (State.resetAt lenBits).resp = { ok := false, cause := 0, count := 0 } ∧
    (State.resetAt lenBits).busy = false) ∧
  State.reset = State.resetAt 32

/-- R94: a reset abandons the command in progress: `RESP` takes its reset value, the block is ready, the source buffer of
a legal command is unchanged, and its destination is unchanged from `DST_CAP` on; with no command in progress no buffer is
touched. That the signal is a bit of the state, which the next step takes before the command in progress and clears (the
clause on `resetLine`), is the model's choice (DESIGN CHOICE, log entry 13). Which buffer an abandoned illegal word had as
its destination is the model's too (log entry 7), and is left out here. -/
def Obligations.ResetAbandonsTheCommand : Prop :=
  ∀ s : State, s.resetLine = true →
    ∃ t, step s = .next t ∧ t.resp = { ok := false, cause := 0, count := 0 } ∧ t.busy = false ∧ t.resetLine = false ∧
      t.lenBits = s.lenBits ∧
      (s.busy = false → t.bytes = s.bytes ∧ t.chars = s.chars) ∧
      (∀ i, s.busy = true → decode s.cmd = .ok i →
        (i.isDecoder = true → t.chars = s.chars ∧ BytesKeptFrom s.dstCap.toNat s t) ∧
        (i.isDecoder = false → t.bytes = s.bytes ∧ CharsKeptFrom s.dstCap.toNat s t))

/-- R9, R10, R11, R12: the alphabets and `PADCH` hold the codes the rules give by formula. -/
def Obligations.AlphabetsHoldTheirCodes : Prop :=
  ENC16L.length = 16 ∧ ENC16U.length = 16 ∧ ENC64.length = 64 ∧ PADCH = 0x003D ∧
  (∀ k < 10, ENC16L[k]? = some (BitVec.ofNat 16 (0x30 + k)) ∧ ENC16U[k]? = some (BitVec.ofNat 16 (0x30 + k))) ∧
  (∀ j < 6, ENC16L[10 + j]? = some (BitVec.ofNat 16 (0x61 + j)) ∧ ENC16U[10 + j]? = some (BitVec.ofNat 16 (0x41 + j))) ∧
  (∀ k < 26, ENC64[k]? = some (BitVec.ofNat 16 (0x41 + k)) ∧ ENC64[26 + k]? = some (BitVec.ofNat 16 (0x61 + k))) ∧
  (∀ j < 10, ENC64[52 + j]? = some (BitVec.ofNat 16 (0x30 + j))) ∧
  ENC64[62]? = some 0x002D ∧ ENC64[63]? = some 0x005F ∧ PADCH ∉ ENC64

/-- R13, R14, R15: an entry of a decoding map is `k` exactly when its index is the code of the alphabet's character `k`
(of either alphabet for `DEC16`), and the sentinel −1 otherwise; 22 and 64 entries are valid. -/
def Obligations.DecodingMapsInvertTheAlphabets : Prop :=
  (∀ (c : Byte) (k : BitVec 4), dec16 c = k.setWidth 8 ↔ (enc16L k = c.setWidth 16 ∨ enc16U k = c.setWidth 16)) ∧
  (∀ c : Byte, dec16 c = 0xFF ∨ (dec16 c).toNat < 16) ∧
  (∀ (c : Byte) (k : BitVec 6), dec64 c = k.setWidth 8 ↔ enc64 k = c.setWidth 16) ∧
  (∀ c : Byte, dec64 c = 0xFF ∨ (dec64 c).toNat < 64) ∧
  ((List.range 256).countP (fun c => !(dec16 (BitVec.ofNat 8 c)).msb)) = 22 ∧
  ((List.range 256).countP (fun c => !(dec64 (BitVec.ofNat 8 c)).msb)) = 64

/-- R52, R53: the character of a nibble is its entry of the chosen alphabet, and so `'0'` plus the nibble below 10 and
`letter-base` plus the nibble from 10 on, with letter bases 0x57 and 0x37. -/
def Obligations.HexIsDigitOrLetterBase : Prop :=
  ∀ (u : Bool) (k : BitVec 4),
    some (hex u k) = (if u then ENC16U else ENC16L)[k.toNat]? ∧
    hex u k = if k.toNat < 10 then BitVec.ofNat 16 (0x30 + k.toNat)
      else BitVec.ofNat 16 ((if u then 0x37 else 0x57) + k.toNat)

/-- R57: among all 65,536 characters exactly the 22 hex characters have a nibble, a character with a non-zero high byte
never, and the byte of a pair is `hi × 16 + lo`. -/
def Obligations.NibbleOfExactlyTheHexCharacters : Prop :=
  (∀ (c : Char16) (v : Nat), nib c = some v ↔
    (c.toNat = 0x30 + v ∧ v < 10) ∨ (10 ≤ v ∧ v < 16 ∧ (c.toNat = 0x41 + (v - 10) ∨ c.toNat = 0x61 + (v - 10)))) ∧
  (∀ hi lo : Nat, hi < 16 → lo < 16 → (pairByte hi lo).toNat = hi * 16 + lo)

/-- R68: a character has symbol value `v` exactly when it is character `v` of `ENC64`, over all 65,536 characters. -/
def Obligations.SymbolOfExactlyTheAlphabet : Prop :=
  ∀ (c : Char16) (v : Nat), sym c = some v ↔ ENC64[v]? = some c

/-- R69: the bytes of a group of symbol values 0 to 63 are `s0[5:0] ‖ s1[5:4]`, `s1[3:0] ‖ s2[5:2]` and
`s2[1:0] ‖ s3[5:0]`. -/
def Obligations.GroupBytesAreTruncated : Prop :=
  ∀ s0 s1 s2 s3 : Nat, s0 < 64 → s1 < 64 → s2 < 64 → s3 < 64 →
    (group2 s0 s1).map BitVec.toNat = [s0 * 4 + s1 / 16] ∧
    (group3 s0 s1 s2).map BitVec.toNat = [s0 * 4 + s1 / 16, s1 % 16 * 16 + s2 / 4] ∧
    (group4 s0 s1 s2 s3).map BitVec.toNat = [s0 * 4 + s1 / 16, s1 % 16 * 16 + s2 / 4, s2 % 4 * 64 + s3]

/-- R61, R62, R63: the indices of a chunk are bits [23:18], [17:12], [11:6] and [5:0] of the 24-bit number
`b0 ‖ b1 ‖ b2`; a tail has the first characters of the chunk with the missing bytes 0. -/
def Obligations.ChunkIndicesAreSixBitFields : Prop :=
  ∀ b0 b1 b2 : Byte,
    (let w := b0.toNat * 65536 + b1.toNat * 256 + b2.toNat
     (chunk3 b0 b1 b2).map some =
       [ENC64[w / 2 ^ 18 % 64]?, ENC64[w / 2 ^ 12 % 64]?, ENC64[w / 2 ^ 6 % 64]?, ENC64[w % 64]?]) ∧
    tail1 b0 = (chunk3 b0 0 0).take 2 ∧ tail2 b0 b1 = (chunk3 b0 b1 0).take 3

/-- R70: the trimmed length is the largest `L' ≤ L` that is 0 or has no `=` before it, and everything cut off is `=`. -/
def Obligations.TrimRemovesEveryTrailingPad : Prop :=
  ∀ (src : List Char16) (n : Nat), n ≤ src.length →
    IsTrimmed src n (trimLen src n) ∧
    ∀ M : Nat, M ≤ n → (M = 0 ∨ src[M - 1]? ≠ some 0x003D) → M ≤ trimLen src n

/-- R54, R55: `B16ENC.L` and `B16ENC.U` fail with `CAPACITY` when `DST_CAP < 2n`, writing nothing; else, with truthful
operands, they write exactly the `2n` characters of the bytes' nibbles, high nibble first, and keep all else. -/
def Obligations.B16encWritesHexPairs : Prop :=
  ∀ (u : Bool) (s : State),
    decode (if u then 0x04 else 0x00) = .ok (b16encInstr u) ∧
    (s.dstCap.toNat < 2 * s.srcLen.toNat → exec (b16encInstr u) s = .next (failed 3 s)) ∧
    (2 * s.srcLen.toNat ≤ s.dstCap.toNat → s.srcLen.toNat ≤ s.bytes.length → s.dstCap.toNat ≤ s.chars.length →
      ∃ t, exec (b16encInstr u) s = .next t ∧ Ends true 0 (2 * s.srcLen.toNat) s t ∧ t.bytes = s.bytes ∧
        CharsKeptFrom (2 * s.srcLen.toNat) s t ∧
        ∀ (i : Nat) (b : Byte), i < s.srcLen.toNat → s.bytes[i]? = some b →
          t.chars[2 * i]? = (if u then ENC16U else ENC16L)[b.toNat / 16]? ∧
          t.chars[2 * i + 1]? = (if u then ENC16U else ENC16L)[b.toNat % 16]?)

/-- R64, R65, R66: `B64ENC` and `B64ENC.P` fail with `CAPACITY` when `DST_CAP < ceil(n/3) × 4`, writing nothing; else,
with truthful operands, they write the characters of the consecutive 6-bit fields of the source, then `=` up to
`REQ` with padding and nothing more without, and keep all else. -/
def Obligations.B64encWritesSixBitFields : Prop :=
  ∀ (pad : Bool) (s : State),
    decode (if pad then 0x06 else 0x02) = .ok (b64encInstr pad) ∧
    (s.dstCap.toNat < (s.srcLen.toNat + 2) / 3 * 4 → exec (b64encInstr pad) s = .next (failed 3 s)) ∧
    ((s.srcLen.toNat + 2) / 3 * 4 ≤ s.dstCap.toNat → s.srcLen.toNat ≤ s.bytes.length →
      s.dstCap.toNat ≤ s.chars.length →
      let count := if pad then (s.srcLen.toNat + 2) / 3 * 4
        else 4 * (s.srcLen.toNat / 3) + (if s.srcLen.toNat % 3 = 0 then 0 else s.srcLen.toNat % 3 + 1)
      ∃ t, exec (b64encInstr pad) s = .next t ∧ Ends true 0 count s t ∧ t.bytes = s.bytes ∧ CharsKeptFrom count s t ∧
        (∀ j : Nat, 6 * j < 8 * s.srcLen.toNat →
          t.chars[j]? = ENC64[sextetAt s.bytes s.srcLen.toNat j]?) ∧
        (∀ j : Nat, 8 * s.srcLen.toNat ≤ 6 * j → j < count → t.chars[j]? = some 0x003D))

/-- R58: `B16DEC` checks null, odd length, capacity and characters in this order; it decodes every valid text, the byte of
a pair being `hi × 16 + lo`, and on an invalid character leaves the destination from `REQ` on and all else alone. -/
def Obligations.B16decFollowsItsChecks : Prop :=
  ∀ s : State,
    decode 0x01 = .ok (.b16dec false) ∧ decode 0x09 = .ok (.b16dec true) ∧
    exec (.b16dec true) s = .next (failed 1 s) ∧
    (s.srcLen.toNat % 2 = 1 → exec (.b16dec false) s = .next (failed 2 s)) ∧
    (s.srcLen.toNat % 2 = 0 → s.dstCap.toNat < s.srcLen.toNat / 2 → exec (.b16dec false) s = .next (failed 3 s)) ∧
    (s.srcLen.toNat % 2 = 0 → s.srcLen.toNat / 2 ≤ s.dstCap.toNat → s.srcLen.toNat ≤ s.chars.length →
      s.dstCap.toNat ≤ s.bytes.length →
      (∀ v : Nat → Nat, (∀ i : Nat, i < s.srcLen.toNat → ∃ c, s.chars[i]? = some c ∧ nib c = some (v i)) →
        ∃ t, exec (.b16dec false) s = .next t ∧ Ends true 0 (s.srcLen.toNat / 2) s t ∧ t.chars = s.chars ∧
          BytesKeptFrom (s.srcLen.toNat / 2) s t ∧
          ∀ k : Nat, k < s.srcLen.toNat / 2 →
            t.bytes[k]? = some (BitVec.ofNat 8 (v (2 * k) * 16 + v (2 * k + 1)))) ∧
      ((∃ (i : Nat) (c : Char16), i < s.srcLen.toNat ∧ s.chars[i]? = some c ∧ nib c = none) →
        ∃ t, exec (.b16dec false) s = .next t ∧ Ends false 2 0 s t ∧ t.chars = s.chars ∧
          BytesKeptFrom (s.srcLen.toNat / 2) s t))

/-- R71, R72: `B64DEC` and `B64DEC.T`, the latter on the trimmed length `L`, check null, then capacity, then the text;
they decode every valid text to the 8-bit fields of its symbol values, and on a text with one character alone or an
invalid character leave the destination from `REQ` on and all else alone. -/
def Obligations.B64decFollowsItsChecks : Prop :=
  ∀ (trim : Bool) (s : State),
    decode (if trim then 0x07 else 0x03) = .ok (b64decOf trim false) ∧
    decode (if trim then 0x0F else 0x0B) = .ok (b64decOf trim true) ∧
    exec (b64decOf trim true) s = .next (failed 1 s) ∧
    ∀ L : Nat, IsTextLength trim s L →
      ((trim = true → s.srcLen.toNat ≤ s.chars.length) → s.dstCap.toNat < L * 3 / 4 →
        exec (b64decOf trim false) s = .next (failed 3 s)) ∧
      (L * 3 / 4 ≤ s.dstCap.toNat → s.srcLen.toNat ≤ s.chars.length → s.dstCap.toNat ≤ s.bytes.length →
        (∀ v : Nat → Nat, L % 4 ≠ 1 → (∀ i : Nat, i < L → ∃ c, s.chars[i]? = some c ∧ sym c = some (v i)) →
          ∃ t, exec (b64decOf trim false) s = .next t ∧ Ends true 0 (L * 3 / 4) s t ∧ t.chars = s.chars ∧
            BytesKeptFrom (L * 3 / 4) s t ∧ ∀ m : Nat, m < L * 3 / 4 → t.bytes[m]? = some (octetAt v m)) ∧
        ((L % 4 = 1 ∨ ∃ (i : Nat) (c : Char16), i < L ∧ s.chars[i]? = some c ∧ sym c = none) →
          ∃ t, exec (b64decOf trim false) s = .next t ∧ Ends false 2 0 s t ∧ t.chars = s.chars ∧
            BytesKeptFrom (L * 3 / 4) s t))

/-- R81: with its `NULL` bit set a decoder answers `(0, NULL_INPUT, 0)`, whatever `SRC_LEN`, `DST_CAP` and the buffers
are, and nothing else changes; a command that goes on reports that cause only then, so no encoder does. -/
def Obligations.NullInputExactlyWhenAbsent : Prop :=
  ∀ (i : Instr) (s : State),
    (i.null = true → i.isDecoder = true ∧ exec i s = .next (failed 1 s)) ∧
    ∀ t : State, exec i s = .next t → (t.resp.cause = 1 ↔ i.null = true)

/-- R79, R80: the causes each command can end with, and for a reserved word always `ILLEGAL`; the cause is `NONE` exactly
when `RESP.OK` is 1. -/
def Obligations.CausesOfEachCommand : Prop :=
  ∀ s t : State, s.resetLine = false → s.busy = true → step s = .next t →
    (t.resp.cause = 0 ↔ t.resp.ok = true) ∧
    match decode s.cmd with
    | .error _ => t.resp.cause = 4
    | .ok i => t.resp.cause = 0 ∨ t.resp.cause = 3 ∨
        (i.isDecoder = true ∧ (t.resp.cause = 1 ∨ t.resp.cause = 2))

/-- R82, R83, R85: every command with truthful operands goes on, and its cause is the first that applies in the order of
R85; a reserved word is `ILLEGAL` before anything else is looked at. -/
def Obligations.FirstCauseIsReported : Prop :=
  (∀ (i : Instr) (s : State), s.truthfulFor i = true →
    ∃ t, exec i s = .next t ∧ t.resp.cause = firstCause i s ∧ t.resp.ok = (firstCause i s == 0)) ∧
  (∀ (s : State) (e : DecodeError), s.resetLine = false → s.busy = true → decode s.cmd = .error e →
    ∃ t, step s = .next t ∧ t.resp.cause = 4 ∧ t.resp.ok = false)

/-- R86: after a failure the count is 0 and the source is unchanged; the destination is unchanged but for a `FORMAT`
failure of the pass, and even then from `REQ` on. -/
def Obligations.FailureLeavesTheRestAlone : Prop :=
  ∀ s t : State, s.resetLine = false → s.busy = true → step s = .next t → t.resp.ok = false →
    t.resp.count = 0 ∧ t.chars = s.chars ∧ (t.resp.cause ≠ 2 → t.bytes = s.bytes) ∧
    ∀ i, decode s.cmd = .ok i →
      (i.isDecoder = false → t.bytes = s.bytes) ∧
      (i = .b16dec false → s.srcLen.toNat % 2 = 1 → t.bytes = s.bytes) ∧
      BytesKeptFrom (reqOf i s) s t

/-- R21, R29: after a success the count is at most `DST_CAP`, the source is unchanged, and the destination is unchanged
from the count on; after a failure the count is 0. -/
def Obligations.CountBoundsWhatIsWritten : Prop :=
  ∀ (i : Instr) (s t : State), exec i s = .next t →
    (t.resp.ok = false → t.resp.count = 0) ∧
    (t.resp.ok = true → t.resp.count.toNat ≤ s.dstCap.toNat ∧
      (i.isDecoder = true → t.chars = s.chars ∧ BytesKeptFrom t.resp.count.toNat s t) ∧
      (i.isDecoder = false → t.bytes = s.bytes ∧ CharsKeptFrom t.resp.count.toNat s t))

/-- R3, R25, R28: the response and the destination elements a success writes depend only on the command's own operands:
not on source elements from `SRC_LEN` on, not on what the destination held, not on the last response or anything else. -/
def Obligations.CommandReadsOnlyItsOperands : Prop :=
  ∀ (i : Instr) (s s' t : State), SameCommand i s s' → exec i s = .next t →
    ∃ t', exec i s' = .next t' ∧ SameResponse t t' ∧
      (t.resp.ok = true →
        if i.isDecoder then t'.bytes.take t.resp.count.toNat = t.bytes.take t.resp.count.toNat
        else t'.chars.take t.resp.count.toNat = t.chars.take t.resp.count.toNat)

/-- R17, R28: no command writes a command register or its source buffer, or touches the reset line; with its response it
is over. -/
def Obligations.NoCommandWritesItsOperands : Prop :=
  ∀ (i : Instr) (s t : State), exec i s = .next t →
    SameOperands s t ∧ t.busy = false ∧ (i.isDecoder = true → t.chars = s.chars) ∧ (i.isDecoder = false → t.bytes = s.bytes)

/-- R75, R76, R77: with truthful operands every command in progress ends with the next step, in success or in failure. -/
def Obligations.EveryIssuedCommandEnds : Prop :=
  ∀ s : State, s.resetLine = false → s.busy = true → s.truthful = true →
    ∃ t, step s = .next t ∧ t.busy = false ∧
      ((t.resp.ok = true ∧ t.resp.cause = 0) ∨
       (t.resp.ok = false ∧ t.resp.count = 0 ∧
         (t.resp.cause = 1 ∨ t.resp.cause = 2 ∨ t.resp.cause = 3 ∨ t.resp.cause = 4)))

/-- R20, R21, R97: every step keeps the invariant `Inv`: legal response registers, and truthful operands while a command
is in progress. -/
def Obligations.StepKeepsTheInvariant : Prop :=
  ∀ s t : State, Inv s → step s = .next t → Inv t

/-- R20, R26: the state after reset meets `Inv`, for every `LEN_BITS`, the default among them. -/
def Obligations.ResetMeetsTheInvariant : Prop := (∀ lenBits : Nat, Inv (State.resetAt lenBits)) ∧ Inv State.reset

/-- R96, R97, R98, R112: every move the host has keeps `Inv`. -/
def Obligations.HostMovesKeepTheInvariant : Prop :=
  ∀ (a : HostAction) (s t : State), Inv s → s.host a = some t → Inv t

/-- R75, R97, U7: in every state that steps and moves of a truthful host lead to from reset, with any `LEN_BITS`, `Inv`
holds and the next step goes on: the block never stops. -/
def Obligations.ReachableStatesNeverStop : Prop :=
  ∀ s : State, Reachable s → Inv s ∧ Goes s

/-- R97, U7 (where the stop comes is log entry 9): a command stops only on untruthful operands, and never for a null
input; it stops where it would reach outside its source, or else outside its destination. -/
def Obligations.OverstatedLengthsStop : Prop :=
  (∀ (i : Instr) (s : State) (f : Fault), exec i s = .fault f → i.null = false ∧ s.truthfulFor i = false) ∧
  (∀ (i : Instr) (s : State) (r : Refusal), exec i s ≠ .refused r) ∧
  (∀ (i : Instr) (s : State), i.null = false → (i = .b16dec false → s.srcLen.toNat % 2 = 0) →
    (i = .b64decT false ∨ reqOf i s ≤ s.dstCap.toNat) → s.srcSize i < s.srcLen.toNat →
    exec i s = .fault .sourceOverrun) ∧
  (∀ (i : Instr) (s : State), i.null = false → (i = .b16dec false → s.srcLen.toNat % 2 = 0) →
    reqOf i s ≤ s.dstCap.toNat → s.srcLen.toNat ≤ s.srcSize i → s.dstSize i < reqOf i s →
    exec i s = .fault .destinationOverrun)

/-- R56: each character a successful base16 encode writes is one of the 16 of its alphabet, has high byte 0, and reads
back through `DEC16` to a nibble. -/
def Obligations.B16encOutputIsInTheAlphabet : Prop :=
  ∀ (u : Bool) (s t : State), exec (b16encInstr u) s = .next t → t.resp.ok = true →
    ∀ (j : Nat) (c : Char16), j < t.resp.count.toNat → t.chars[j]? = some c →
      c ∈ (if u then ENC16U else ENC16L) ∧ c.high = 0 ∧ (nib c).isSome = true

/-- R59: the case of the letters of the source changes neither the response of `B16DEC` nor the bytes it writes on
success. -/
def Obligations.B16decIgnoresCase : Prop :=
  ∀ (null : Bool) (s s' t : State),
    s'.srcLen.toNat = s.srcLen.toNat → s'.dstCap.toNat = s.dstCap.toNat → s'.bytes = s.bytes →
    s'.chars.length = s.chars.length → (∀ p ∈ s.chars.zip s'.chars, CaseVariant p.1 p.2) →
    exec (.b16dec null) s = .next t →
    ∃ t', exec (.b16dec null) s' = .next t' ∧ SameResponse t t' ∧ (t.resp.ok = true → t'.bytes = t.bytes)

/-- R60: what `B16ENC.L` or `B16ENC.U` writes, given to `B16DEC`, decodes to the source bytes. -/
def Obligations.Base16RoundTrip : Prop :=
  ∀ (u : Bool) (s : State),
    s.srcLen.toNat ≤ s.bytes.length → s.dstCap.toNat ≤ s.chars.length → 2 * s.srcLen.toNat ≤ s.dstCap.toNat →
    ∃ t, exec (b16encInstr u) s = .next t ∧ t.resp.ok = true ∧ t.resp.count.toNat = 2 * s.srcLen.toNat ∧
      ∀ s' : State, s'.srcLen.toNat = t.resp.count.toNat → t.resp.count.toNat ≤ s'.chars.length →
        s'.chars.take t.resp.count.toNat = t.chars.take t.resp.count.toNat →
        s.srcLen.toNat ≤ s'.dstCap.toNat → s'.dstCap.toNat ≤ s'.bytes.length →
        ∃ t', exec (.b16dec false) s' = .next t' ∧ t'.resp.ok = true ∧ t'.resp.count.toNat = s.srcLen.toNat ∧
          t'.bytes.take s.srcLen.toNat = s.bytes.take s.srcLen.toNat

/-- R74: what `B64ENC` or `B64ENC.P` writes decodes to the source bytes under `B64DEC.T`, and what `B64ENC` writes also
under `B64DEC`; what `B64ENC.P` writes with padding fails under `B64DEC`, with `FORMAT` if the capacity reaches the
`REQ` of the untrimmed text and with `CAPACITY` if not. -/
def Obligations.Base64urlRoundTrip : Prop :=
  ∀ (pad : Bool) (s : State),
    s.srcLen.toNat ≤ s.bytes.length → s.dstCap.toNat ≤ s.chars.length → (s.srcLen.toNat + 2) / 3 * 4 ≤ s.dstCap.toNat →
    ∃ t, exec (b64encInstr pad) s = .next t ∧ t.resp.ok = true ∧
      ∀ s' : State, s'.srcLen.toNat = t.resp.count.toNat → t.resp.count.toNat ≤ s'.chars.length →
        s'.chars.take t.resp.count.toNat = t.chars.take t.resp.count.toNat → s'.dstCap.toNat ≤ s'.bytes.length →
        (∀ trim : Bool, (trim = true ∨ pad = false) → s.srcLen.toNat ≤ s'.dstCap.toNat →
          ∃ t', exec (b64decOf trim false) s' = .next t' ∧ t'.resp.ok = true ∧
            t'.resp.count.toNat = s.srcLen.toNat ∧ t'.bytes.take s.srcLen.toNat = s.bytes.take s.srcLen.toNat) ∧
        (pad = true → s.srcLen.toNat % 3 ≠ 0 →
          ∃ t', exec (.b64dec false) s' = .next t' ∧ t'.resp.ok = false ∧
            t'.resp.cause = if (s.srcLen.toNat + 2) / 3 * 3 ≤ s'.dstCap.toNat then 2 else 3)

/-- R73: the unused low bits of the last symbol of a short final group (four with two characters, two with three) change
neither the response nor the bytes: several texts decode to one byte sequence. -/
def Obligations.SpareBitsAreNotExamined : Prop :=
  ∀ (s s' t : State) (c c' : Char16) (v v' : Nat),
    s'.srcLen.toNat = s.srcLen.toNat → s'.dstCap.toNat = s.dstCap.toNat → s'.bytes = s.bytes →
    s.srcLen.toNat ≤ s.chars.length → s'.chars = s.chars.set (s.srcLen.toNat - 1) c' →
    s.chars[s.srcLen.toNat - 1]? = some c → sym c = some v → sym c' = some v' →
    (s.srcLen.toNat % 4 = 2 ∧ v / 16 = v' / 16 ∨ s.srcLen.toNat % 4 = 3 ∧ v / 4 = v' / 4) →
    exec (.b64dec false) s = .next t →
    ∃ t', exec (.b64dec false) s' = .next t' ∧ SameResponse t t' ∧ (t.resp.ok = true → t'.bytes = t.bytes)

/-- R7, R113: `REQ` is exact and never wrapped, whatever `LEN_BITS` is: when it is above 2^LEN_BITS − 1 no `DST_CAP` reaches
it, and the command fails with `CAPACITY`. -/
def Obligations.RequiredCapacityNeverWraps : Prop :=
  (∀ (u : Bool) (s : State), 2 ^ s.lenBits ≤ 2 * s.srcLen.toNat → exec (b16encInstr u) s = .next (failed 3 s)) ∧
  (∀ (p : Bool) (s : State), 2 ^ s.lenBits ≤ (s.srcLen.toNat + 2) / 3 * 4 →
    exec (b64encInstr p) s = .next (failed 3 s))

/-- R99: with a capacity of at least the documented formula no command fails with `CAPACITY`; for `B64DEC.T` the formula
of the untrimmed length is enough. -/
def Obligations.DocumentedCapacityIsEnough : Prop :=
  ∀ (i : Instr) (s t : State), exec i s = .next t →
    (match i with
     | .b16encL | .b16encU => 2 * s.srcLen.toNat
     | .b16dec _ => s.srcLen.toNat / 2
     | .b64enc | .b64encP => (s.srcLen.toNat + 2) / 3 * 4
     | .b64dec _ | .b64decT _ => s.srcLen.toNat * 3 / 4) ≤ s.dstCap.toNat →
    t.resp.cause ≠ 3

/-- R100: `B64DEC` on a text that ends in `=` fails: with `FORMAT` when `DST_CAP ≥ (SRC_LEN × 3) div 4`, and with
`CAPACITY` otherwise. -/
def Obligations.UntrimmedPaddingFails : Prop :=
  ∀ s : State, 0 < s.srcLen.toNat → s.truthfulFor (.b64dec false) = true →
    s.chars[s.srcLen.toNat - 1]? = some 0x003D →
    ∃ t, exec (.b64dec false) s = .next t ∧ t.resp.ok = false ∧
      t.resp.cause = if s.srcLen.toNat * 3 / 4 ≤ s.dstCap.toNat then 2 else 3

/-- R104, R108, R111 with R60, R74: on an idle block the encoding operations return a text, of the documented length, and
the raising decoding operations return the bytes it came from, for every byte sequence whose text is short enough for
`SRC_LEN`. -/
def Obligations.HostOperationsRoundTrip : Prop :=
  ∀ (b : List Byte) (s s' : State), Idle s → Idle s' →
    (∀ u : Bool, 2 * b.length < 2 ^ s.lenBits → 2 * b.length < 2 ^ s'.lenBits →
      ∃ text, base16Encode b u s = some (some text) ∧ text.length = 2 * b.length ∧
        base16Decode (some text) s' = some (.inr b)) ∧
    (∀ p : Bool, (b.length + 2) / 3 * 4 < 2 ^ s.lenBits → (b.length + 2) / 3 * 4 < 2 ^ s'.lenBits →
      ∃ text, base64urlEncode b p s = some (some text) ∧
        text.length = (if p then (b.length + 2) / 3 * 4
          else 4 * (b.length / 3) + (if b.length % 3 = 0 then 0 else b.length % 3 + 1)) ∧
        base64urlDecode (some text) s' = some (.inr b))

/-- R90, R111: on an idle block the raising forms raise `NullInputError` for an absent input, return an empty
sequence for an empty one, and raise `FormatError` for a malformed text. -/
def Obligations.RaisingFormsRaise : Prop :=
  ∀ s : State, Idle s →
    base16Decode none s = some (.inl .nullInputError) ∧ base64urlDecode none s = some (.inl .nullInputError) ∧
    base16Decode (some []) s = some (.inr []) ∧ base64urlDecode (some []) s = some (.inr []) ∧
    (∀ cs : List Char16, cs.length < 2 ^ s.lenBits →
      (cs.length % 2 = 1 ∨ ∃ c ∈ cs, nib c = none) → base16Decode (some cs) s = some (.inl .formatError)) ∧
    (∀ cs : List Char16, cs.length < 2 ^ s.lenBits →
      (∃ L : Nat, IsTrimmed cs cs.length L ∧ (L % 4 = 1 ∨ ∃ c ∈ cs.take L, sym c = none)) →
      base64urlDecode (some cs) s = some (.inl .formatError))

/-- R107, R110 (c): `CAPACITY` cannot occur in the decoding operations that allocate their own destination. -/
def Obligations.AllocatingDecodesNeverLackCapacity : Prop :=
  ∀ (input : Option (List Char16)) (s t : State),
    (base16DecodeCommand input s = some t → t.resp.cause ≠ 3) ∧
    (base64urlDecodeCommand input s = some t → t.resp.cause ≠ 3)

/-- R92: a step of one instance, and a move of its host, changes that instance as it changes a block, and no other; it is
there exactly when the block has it. -/
def Obligations.InstancesAreIndependent : Prop :=
  ∀ (k : Nat) (S : System) (s : State), S.instances[k]? = some s →
    (∀ t, step s = .next t → ∃ S', S.stepAt k = .next S' ∧ OnlyInstance k t S S') ∧
    (∀ S', S.stepAt k = .next S' → ∃ t, step s = .next t ∧ OnlyInstance k t S S') ∧
    (∀ a t, s.host a = some t → ∃ S', S.hostAt k a = some S' ∧ OnlyInstance k t S S') ∧
    (∀ a S', S.hostAt k a = some S' → ∃ t, s.host a = some t ∧ OnlyInstance k t S S')

/-- R75, R97: a step of a state that meets `Inv` answers a next state: with every step keeping `Inv`
(`StepKeepsTheInvariant`), the block never stops. -/
def Obligations.InvariantStatesNeverStop : Prop :=
  ∀ s : State, Inv s → Goes s

/-- R92: what a command on one instance does not depend on what another does: steps of two instances lead to one platform
state in either order. -/
def Obligations.InstanceStepsCommute : Prop :=
  ∀ (k j : Nat) (S S₁ S₂ : System), k ≠ j → S.stepAt k = .next S₁ → S.stepAt j = .next S₂ →
    ∃ T, S₁.stepAt j = .next T ∧ S₂.stepAt k = .next T

/-- R92, R26: a platform of any number of instances starts with each of them after reset, and the host of each can issue
any word there, with lengths of 0, and no other instance changes. -/
def Obligations.EveryInstanceCanBeUsed : Prop :=
  ∀ (count lenBits k : Nat) (w : BitVec 8), k < count →
    (System.resetAt count lenBits).instances[k]? = some (State.resetAt lenBits) ∧
    ∃ S₁ S₂ S₃ S₄ t,
      (System.resetAt count lenBits).hostAt k (.writeCmd w) = some S₁ ∧ S₁.hostAt k (.writeSrcLen 0) = some S₂ ∧
      S₂.hostAt k (.writeDstCap 0) = some S₃ ∧ S₃.hostAt k .issue = some S₄ ∧
      OnlyInstance k t (System.resetAt count lenBits) S₄ ∧ t.cmd = w ∧ t.busy = true ∧ t.lenBits = lenBits
end

