-- ==== Sys2Proof/Laws/State.lean ====
section
/-! SUPPORT. One lemma per field of the state per update of it, so that no proof unfolds a record update. -/

namespace Sys2Proof.Machine

variable (s : State) (r : Resp s.lenBits) (w : Nat) (c : Cause) (n : Nat) (bs : List Byte) (cs : List Char16)

@[simp] theorem State.fetch_eq : s.fetch = s.cmd := rfl

@[simp] theorem State.respond_lenBits : (s.respond r).lenBits = s.lenBits := rfl
@[simp] theorem State.respond_cmd : (s.respond r).cmd = s.cmd := rfl
@[simp] theorem State.respond_srcLen : (s.respond r).srcLen = s.srcLen := rfl
@[simp] theorem State.respond_dstCap : (s.respond r).dstCap = s.dstCap := rfl
@[simp] theorem State.respond_resp : (s.respond r).resp = r := rfl
@[simp] theorem State.respond_busy : (s.respond r).busy = false := rfl
@[simp] theorem State.respond_resetLine : (s.respond r).resetLine = s.resetLine := rfl
@[simp] theorem State.respond_bytes : (s.respond r).bytes = s.bytes := rfl
@[simp] theorem State.respond_chars : (s.respond r).chars = s.chars := rfl
@[simp] theorem State.respond_draws : (s.respond r).draws = s.draws := rfl

@[simp] theorem State.complete_lenBits : (s.complete n).lenBits = s.lenBits := rfl
@[simp] theorem State.complete_cmd : (s.complete n).cmd = s.cmd := rfl
@[simp] theorem State.complete_srcLen : (s.complete n).srcLen = s.srcLen := rfl
@[simp] theorem State.complete_dstCap : (s.complete n).dstCap = s.dstCap := rfl
@[simp] theorem State.complete_resp : (s.complete n).resp = Resp.success n := rfl
@[simp] theorem State.complete_busy : (s.complete n).busy = false := rfl
@[simp] theorem State.complete_resetLine : (s.complete n).resetLine = s.resetLine := rfl
@[simp] theorem State.complete_bytes : (s.complete n).bytes = s.bytes := rfl
@[simp] theorem State.complete_chars : (s.complete n).chars = s.chars := rfl
@[simp] theorem State.complete_draws : (s.complete n).draws = s.draws := rfl

@[simp] theorem State.raise_lenBits : (s.raise c).lenBits = s.lenBits := rfl
@[simp] theorem State.raise_cmd : (s.raise c).cmd = s.cmd := rfl
@[simp] theorem State.raise_srcLen : (s.raise c).srcLen = s.srcLen := rfl
@[simp] theorem State.raise_dstCap : (s.raise c).dstCap = s.dstCap := rfl
@[simp] theorem State.raise_resp : (s.raise c).resp = Resp.failure c := rfl
@[simp] theorem State.raise_busy : (s.raise c).busy = false := rfl
@[simp] theorem State.raise_resetLine : (s.raise c).resetLine = s.resetLine := rfl
@[simp] theorem State.raise_bytes : (s.raise c).bytes = s.bytes := rfl
@[simp] theorem State.raise_chars : (s.raise c).chars = s.chars := rfl
@[simp] theorem State.raise_draws : (s.raise c).draws = s.draws := rfl

@[simp] theorem State.writeChars_lenBits : (s.writeChars cs).lenBits = s.lenBits := rfl
@[simp] theorem State.writeChars_cmd : (s.writeChars cs).cmd = s.cmd := rfl
@[simp] theorem State.writeChars_srcLen : (s.writeChars cs).srcLen = s.srcLen := rfl
@[simp] theorem State.writeChars_dstCap : (s.writeChars cs).dstCap = s.dstCap := rfl
@[simp] theorem State.writeChars_resp : (s.writeChars cs).resp = s.resp := rfl
@[simp] theorem State.writeChars_busy : (s.writeChars cs).busy = s.busy := rfl
@[simp] theorem State.writeChars_resetLine : (s.writeChars cs).resetLine = s.resetLine := rfl
@[simp] theorem State.writeChars_bytes : (s.writeChars cs).bytes = s.bytes := rfl
@[simp] theorem State.writeChars_chars : (s.writeChars cs).chars = putPrefix cs s.chars := rfl
@[simp] theorem State.writeChars_draws : (s.writeChars cs).draws = s.draws := rfl

@[simp] theorem State.writeBytes_lenBits : (s.writeBytes bs).lenBits = s.lenBits := rfl
@[simp] theorem State.writeBytes_cmd : (s.writeBytes bs).cmd = s.cmd := rfl
@[simp] theorem State.writeBytes_srcLen : (s.writeBytes bs).srcLen = s.srcLen := rfl
@[simp] theorem State.writeBytes_dstCap : (s.writeBytes bs).dstCap = s.dstCap := rfl
@[simp] theorem State.writeBytes_resp : (s.writeBytes bs).resp = s.resp := rfl
@[simp] theorem State.writeBytes_busy : (s.writeBytes bs).busy = s.busy := rfl
@[simp] theorem State.writeBytes_resetLine : (s.writeBytes bs).resetLine = s.resetLine := rfl
@[simp] theorem State.writeBytes_bytes : (s.writeBytes bs).bytes = putPrefix bs s.bytes := rfl
@[simp] theorem State.writeBytes_chars : (s.writeBytes bs).chars = s.chars := rfl
@[simp] theorem State.writeBytes_draws : (s.writeBytes bs).draws = s.draws := rfl

@[simp] theorem State.spoilBytes_lenBits : (s.spoilBytes n).lenBits = s.lenBits := rfl
@[simp] theorem State.spoilBytes_cmd : (s.spoilBytes n).cmd = s.cmd := rfl
@[simp] theorem State.spoilBytes_srcLen : (s.spoilBytes n).srcLen = s.srcLen := rfl
@[simp] theorem State.spoilBytes_dstCap : (s.spoilBytes n).dstCap = s.dstCap := rfl
@[simp] theorem State.spoilBytes_resp : (s.spoilBytes n).resp = s.resp := rfl
@[simp] theorem State.spoilBytes_busy : (s.spoilBytes n).busy = s.busy := rfl
@[simp] theorem State.spoilBytes_resetLine : (s.spoilBytes n).resetLine = s.resetLine := rfl
@[simp] theorem State.spoilBytes_bytes :
    (s.spoilBytes n).bytes = spoilPrefix (Config.freeByte s.draws) n s.bytes := rfl
@[simp] theorem State.spoilBytes_chars : (s.spoilBytes n).chars = s.chars := rfl
@[simp] theorem State.spoilBytes_draws : (s.spoilBytes n).draws = s.draws + 1 := rfl

@[simp] theorem State.spoilChars_lenBits : (s.spoilChars n).lenBits = s.lenBits := rfl
@[simp] theorem State.spoilChars_cmd : (s.spoilChars n).cmd = s.cmd := rfl
@[simp] theorem State.spoilChars_srcLen : (s.spoilChars n).srcLen = s.srcLen := rfl
@[simp] theorem State.spoilChars_dstCap : (s.spoilChars n).dstCap = s.dstCap := rfl
@[simp] theorem State.spoilChars_resp : (s.spoilChars n).resp = s.resp := rfl
@[simp] theorem State.spoilChars_busy : (s.spoilChars n).busy = s.busy := rfl
@[simp] theorem State.spoilChars_resetLine : (s.spoilChars n).resetLine = s.resetLine := rfl
@[simp] theorem State.spoilChars_bytes : (s.spoilChars n).bytes = s.bytes := rfl
@[simp] theorem State.spoilChars_chars :
    (s.spoilChars n).chars = spoilPrefix (Config.freeChar s.draws) n s.chars := rfl
@[simp] theorem State.spoilChars_draws : (s.spoilChars n).draws = s.draws + 1 := rfl

@[simp] theorem State.takeReset_resp : s.takeReset.resp = Resp.atReset := rfl
@[simp] theorem State.takeReset_busy : s.takeReset.busy = false := rfl
@[simp] theorem State.takeReset_resetLine : s.takeReset.resetLine = false := rfl

@[simp] theorem State.abandon_lenBits : s.abandon.lenBits = s.lenBits := by unfold State.abandon; split <;> rfl

@[simp] theorem State.takeReset_lenBits : s.takeReset.lenBits = s.lenBits := by
  unfold State.takeReset; cases s.busy
  · rfl
  · exact s.abandon_lenBits

theorem State.takeReset_bytes : s.takeReset.bytes = if s.busy then s.abandon.bytes else s.bytes := by
  unfold State.takeReset; cases s.busy <;> rfl

theorem State.takeReset_chars : s.takeReset.chars = if s.busy then s.abandon.chars else s.chars := by
  unfold State.takeReset; cases s.busy <;> rfl

@[simp] theorem Resp.atReset_ok : (Resp.atReset : Resp w).ok = false := rfl
@[simp] theorem Resp.atReset_cause : (Resp.atReset : Resp w).cause = 0 := rfl
@[simp] theorem Resp.atReset_count : (Resp.atReset : Resp w).count = 0 := rfl
@[simp] theorem Resp.success_ok : (Resp.success n : Resp w).ok = true := rfl
@[simp] theorem Resp.success_cause : (Resp.success n : Resp w).cause = 0 := rfl
@[simp] theorem Resp.success_count : (Resp.success n : Resp w).count = BitVec.ofNat _ n := rfl
@[simp] theorem Resp.failure_ok : (Resp.failure c : Resp w).ok = false := rfl
@[simp] theorem Resp.failure_cause : (Resp.failure c : Resp w).cause = c.code := rfl
@[simp] theorem Resp.failure_count : (Resp.failure c : Resp w).count = 0 := rfl

/-- A count that fits is in `RESP.COUNT` exactly (R113 (c)). -/
theorem Resp.success_count_toNat {w : Nat} {m : Len w} (h : n ≤ m.toNat) : (Resp.success n : Resp w).count.toNat = n := by
  have := m.isLt
  simp only [Resp.success_count, BitVec.toNat_ofNat]
  exact Nat.mod_eq_of_lt (by omega)

end Sys2Proof.Machine
end

