-- ==== Sys2Proof/Laws/Ops.lean ====
section
/-! SUPPORT. What each shared operation can do, once: the buffer writes, the access check, the two command shapes. -/

namespace Sys2Proof.Machine

section Buffers

variable {α : Type} (out buf : List α) (free : Nat → α) (n : Nat)

/-- A buffer is its elements: two buffers that read alike at every index are the same data. -/
theorem buffer_ext (a b : List α) : (∀ i : Nat, a[i]? = b[i]?) ↔ a = b :=
  ⟨List.ext_getElem?, fun h i => by rw [h]⟩

theorem putPrefix_length (h : out.length ≤ buf.length) : (putPrefix out buf).length = buf.length := by
  simp [putPrefix]; omega

theorem putPrefix_below {j : Nat} (h : j < out.length) : (putPrefix out buf)[j]? = out[j]? := by
  simp [putPrefix, List.getElem?_append_left h]

theorem putPrefix_above {j : Nat} (h : out.length ≤ j) : (putPrefix out buf)[j]? = buf[j]? := by
  simp [putPrefix, List.getElem?_append_right h]
  congr 1; omega

theorem putPrefix_take : (putPrefix out buf).take out.length = out := by simp [putPrefix]

theorem spoilPrefix_length : (spoilPrefix free n buf).length = buf.length :=
  putPrefix_length _ _ (by simp)

theorem spoilPrefix_above {j : Nat} (h : n ≤ j) : (spoilPrefix free n buf)[j]? = buf[j]? := by
  by_cases hj : j < buf.length
  · exact putPrefix_above _ _ (by simp; omega)
  · rw [List.getElem?_eq_none (by rw [spoilPrefix_length]; omega), List.getElem?_eq_none (by omega)]

theorem spoilPrefix_zero : spoilPrefix free 0 buf = buf := by simp [spoilPrefix, putPrefix]

end Buffers

/-- Within the buffers the access check lets a command go on. -/
theorem accessing_ok {a b c d : Nat} {k : Answer} (h1 : b ≤ a) (h2 : d ≤ c) : accessing a b c d k = k := by
  simp [accessing, Nat.not_lt.mpr h1, Nat.not_lt.mpr h2]

/-- What the access check answers. -/
theorem accessing_cases (a b c d : Nat) (k : Answer) :
    (a < b ∧ accessing a b c d k = .fault .sourceOverrun) ∨
    (b ≤ a ∧ c < d ∧ accessing a b c d k = .fault .destinationOverrun) ∨
    (b ≤ a ∧ d ≤ c ∧ accessing a b c d k = k) := by
  unfold accessing
  split
  · exact .inl ⟨‹_›, rfl⟩
  · split
    · exact .inr (.inl ⟨by omega, ‹_›, rfl⟩)
    · exact .inr (.inr ⟨by omega, by omega, rfl⟩)

/-- The state after an encoder command that succeeds. -/
def State.afterEncode (count : Nat) (text : List Byte → List Char16) (s : State) : State :=
  (s.writeChars (text (s.bytes.take s.srcLen.toNat))).complete count

theorem encodeCommand_capacity {req count : Nat} {text : List Byte → List Char16} {s : State}
    (h : s.dstCap.toNat < req) : encodeCommand req count text s = .next (s.raise .capacity) := by
  simp [encodeCommand, h]

theorem encodeCommand_ok {req count : Nat} {text : List Byte → List Char16} {s : State}
    (hc : req ≤ s.dstCap.toNat) (hs : s.srcLen.toNat ≤ s.bytes.length) (hd : req ≤ s.chars.length) :
    encodeCommand req count text s = .next (s.afterEncode count text) := by
  simp [encodeCommand, Nat.not_lt.mpr hc, accessing_ok hs hd, State.afterEncode]

/-- Everything an encoder command can do, guards included. -/
theorem encodeCommand_cases (req count : Nat) (text : List Byte → List Char16) (s : State) :
    (s.dstCap.toNat < req ∧ encodeCommand req count text s = .next (s.raise .capacity)) ∨
    (req ≤ s.dstCap.toNat ∧ s.bytes.length < s.srcLen.toNat ∧
      encodeCommand req count text s = .fault .sourceOverrun) ∨
    (req ≤ s.dstCap.toNat ∧ s.srcLen.toNat ≤ s.bytes.length ∧ s.chars.length < req ∧
      encodeCommand req count text s = .fault .destinationOverrun) ∨
    (req ≤ s.dstCap.toNat ∧ s.srcLen.toNat ≤ s.bytes.length ∧ req ≤ s.chars.length ∧
      encodeCommand req count text s = .next (s.afterEncode count text)) := by
  by_cases hc : s.dstCap.toNat < req
  · exact .inl ⟨hc, encodeCommand_capacity hc⟩
  · simp only [encodeCommand, hc, if_false]
    rcases accessing_cases s.bytes.length s.srcLen.toNat s.chars.length req
      (.next ((s.writeChars (text (s.bytes.take s.srcLen.toNat))).complete count)) with h | h | h
    · exact .inr (.inl ⟨by omega, h.1, h.2⟩)
    · exact .inr (.inr (.inl ⟨by omega, h.1, h.2.1, h.2.2⟩))
    · exact .inr (.inr (.inr ⟨by omega, h.1, h.2.1, h.2.2⟩))

/-- Everything an encoder command that goes on can do. -/
theorem encodeCommand_next {req count : Nat} {text : List Byte → List Char16} {s t : State}
    (h : encodeCommand req count text s = .next t) :
    (s.dstCap.toNat < req ∧ t = s.raise .capacity) ∨
    (req ≤ s.dstCap.toNat ∧ s.srcLen.toNat ≤ s.bytes.length ∧ req ≤ s.chars.length ∧ t = s.afterEncode count text) := by
  rcases encodeCommand_cases req count text s with h' | h' | h' | h'
  · rw [h'.2] at h; cases h; exact .inl ⟨h'.1, rfl⟩
  · rw [h'.2.2] at h; cases h
  · rw [h'.2.2.2] at h; cases h
  · rw [h'.2.2.2] at h; cases h; exact .inr ⟨h'.1, h'.2.1, h'.2.2.1, rfl⟩

/-- The state after a decoder's pass that succeeds with the bytes `out`. -/
def State.afterDecode (req : Nat) (out : List Byte) (s : State) : State := (s.writeBytes out).complete req

/-- The state after a decoder's pass that fails on the text. -/
def State.afterSpoil (req : Nat) (s : State) : State := (s.spoilBytes req).raise .format

theorem decodePass_capacity {L req : Nat} {value : List Char16 → Option (List Byte)} {s : State}
    (h : s.dstCap.toNat < req) : decodePass L req value s = .next (s.raise .capacity) := by
  simp [decodePass, h]

theorem decodePass_ok {L req : Nat} {value : List Char16 → Option (List Byte)} {s : State} {out : List Byte}
    (hc : req ≤ s.dstCap.toNat) (hs : L ≤ s.chars.length) (hd : req ≤ s.bytes.length)
    (hv : value (s.chars.take L) = some out) : decodePass L req value s = .next (s.afterDecode req out) := by
  simp [decodePass, Nat.not_lt.mpr hc, accessing_ok hs hd, hv, State.afterDecode]

theorem decodePass_format {L req : Nat} {value : List Char16 → Option (List Byte)} {s : State}
    (hc : req ≤ s.dstCap.toNat) (hs : L ≤ s.chars.length) (hd : req ≤ s.bytes.length)
    (hv : value (s.chars.take L) = none) : decodePass L req value s = .next (s.afterSpoil req) := by
  simp [decodePass, Nat.not_lt.mpr hc, accessing_ok hs hd, hv, State.afterSpoil]

/-- Everything a decoder's pass can do, guards included. -/
theorem decodePass_cases (L req : Nat) (value : List Char16 → Option (List Byte)) (s : State) :
    (s.dstCap.toNat < req ∧ decodePass L req value s = .next (s.raise .capacity)) ∨
    (req ≤ s.dstCap.toNat ∧ s.chars.length < L ∧ decodePass L req value s = .fault .sourceOverrun) ∨
    (req ≤ s.dstCap.toNat ∧ L ≤ s.chars.length ∧ s.bytes.length < req ∧
      decodePass L req value s = .fault .destinationOverrun) ∨
    (req ≤ s.dstCap.toNat ∧ L ≤ s.chars.length ∧ req ≤ s.bytes.length ∧
      ((∃ out, value (s.chars.take L) = some out ∧ decodePass L req value s = .next (s.afterDecode req out)) ∨
       (value (s.chars.take L) = none ∧ decodePass L req value s = .next (s.afterSpoil req)))) := by
  by_cases hc : s.dstCap.toNat < req
  · exact .inl ⟨hc, decodePass_capacity hc⟩
  · have hc' := Nat.not_lt.mp hc
    by_cases hs : s.chars.length < L
    · exact .inr (.inl ⟨hc', hs, by simp [decodePass, hc, accessing, hs]⟩)
    · by_cases hd : s.bytes.length < req
      · exact .inr (.inr (.inl ⟨hc', by omega, hd, by simp [decodePass, hc, accessing, hs, hd]⟩))
      · refine .inr (.inr (.inr ⟨hc', by omega, by omega, ?_⟩))
        cases hv : value (s.chars.take L) with
        | some out => exact .inl ⟨out, rfl, decodePass_ok hc' (by omega) (by omega) hv⟩
        | none => exact .inr ⟨rfl, decodePass_format hc' (by omega) (by omega) hv⟩

/-- Everything a decoder's pass that goes on can do. -/
theorem decodePass_next {L req : Nat} {value : List Char16 → Option (List Byte)} {s t : State}
    (h : decodePass L req value s = .next t) :
    (s.dstCap.toNat < req ∧ t = s.raise .capacity) ∨
    (req ≤ s.dstCap.toNat ∧ L ≤ s.chars.length ∧ req ≤ s.bytes.length ∧
      ((∃ out, value (s.chars.take L) = some out ∧ t = s.afterDecode req out) ∨
       (value (s.chars.take L) = none ∧ t = s.afterSpoil req))) := by
  rcases decodePass_cases L req value s with h' | h' | h' | h'
  · rw [h'.2] at h; cases h; exact .inl ⟨h'.1, rfl⟩
  · rw [h'.2.2] at h; cases h
  · rw [h'.2.2.2] at h; cases h
  · obtain ⟨h1, h2, h3, h4⟩ := h'
    rcases h4 with ⟨out, hv, e⟩ | ⟨hv, e⟩ <;> rw [e] at h <;> cases h
    · exact .inr ⟨h1, h2, h3, .inl ⟨out, hv, rfl⟩⟩
    · exact .inr ⟨h1, h2, h3, .inr ⟨hv, rfl⟩⟩

end Sys2Proof.Machine
end

