-- ==== Sys2Proof/Laws/Codecs.lean ====
section
/-! SUPPORT. The transformations: the tables read back, the lengths written, and when a text has a value. -/

namespace Sys2Proof.Machine

/-- The base16 alphabets read back through `DEC16` (R56). -/
theorem nib_hex (u : Bool) (k : BitVec 4) : nib (hex u k) = some k.toNat := by revert u k; decide

/-- The base64url alphabet reads back through `DEC64` (R14). -/
theorem sym_enc64 (k : BitVec 6) : sym (enc64 k) = some k.toNat := by revert k; decide

theorem dec16_valid : ∀ c : Byte, (dec16 c).msb = false → (dec16 c).toNat < 16 := by decide

theorem dec64_valid : ∀ c : Byte, (dec64 c).msb = false → (dec64 c).toNat < 64 := by decide

theorem nib_lt {c : Char16} {v : Nat} (h : nib c = some v) : v < 16 := by
  simp only [nib, entryValue, Option.ite_none_left_eq_some, Option.some.injEq, Bool.not_eq_true] at h
  exact h.2.2 ▸ dec16_valid _ h.2.1

theorem sym_lt {c : Char16} {v : Nat} (h : sym c = some v) : v < 64 := by
  simp only [sym, entryValue, Option.ite_none_left_eq_some, Option.some.injEq, Bool.not_eq_true] at h
  exact h.2.2 ▸ dec64_valid _ h.2.1

theorem hexText_length (u : Bool) (bs : List Byte) : (hexText u bs).length = reqB16enc bs.length := by
  induction bs with
  | nil => rfl
  | cons b bs ih => simp [hexText, hexPair, ih, reqB16enc]; omega

theorem b64Text_length (pad : Bool) (bs : List Byte) : (b64Text pad bs).length = countB64enc pad bs.length := by
  induction bs using b64Text.induct with
  | case1 => rfl
  | case2 b0 => cases pad <;> simp [b64Text, tail1, countB64enc]
  | case3 b0 b1 => cases pad <;> simp [b64Text, tail2, countB64enc]
  | case4 b0 b1 b2 rest ih =>
    simp only [b64Text, List.length_append, ih, List.length_cons, chunk3, List.length_nil, countB64enc]
    split_ifs <;> omega

theorem countB64enc_le (pad : Bool) (n : Nat) : countB64enc pad n ≤ reqB64enc n := by
  unfold countB64enc reqB64enc; split_ifs <;> omega

/-- A text of at least one pair has a value exactly when the pair and the rest have. -/
theorem hexValue_cons {c0 c1 : Char16} {rest : List Char16} {out : List Byte} :
    hexValue (c0 :: c1 :: rest) = some out ↔
      ∃ hi lo tl, nib c0 = some hi ∧ nib c1 = some lo ∧ hexValue rest = some tl ∧ out = pairByte hi lo :: tl := by
  rw [hexValue]
  cases nib c0 <;> cases nib c1 <;> cases hexValue rest <;> simp [eq_comm]

theorem b64Value_two {c0 c1 : Char16} {out : List Byte} :
    b64Value [c0, c1] = some out ↔ ∃ s0 s1, sym c0 = some s0 ∧ sym c1 = some s1 ∧ out = group2 s0 s1 := by
  rw [b64Value]
  cases sym c0 <;> cases sym c1 <;> simp [eq_comm]

theorem b64Value_three {c0 c1 c2 : Char16} {out : List Byte} :
    b64Value [c0, c1, c2] = some out ↔
      ∃ s0 s1 s2, sym c0 = some s0 ∧ sym c1 = some s1 ∧ sym c2 = some s2 ∧ out = group3 s0 s1 s2 := by
  rw [b64Value]
  cases sym c0 <;> cases sym c1 <;> cases sym c2 <;> simp [eq_comm]

/-- A text of at least one full group has a value exactly when the group and the rest have. -/
theorem b64Value_cons {c0 c1 c2 c3 : Char16} {rest : List Char16} {out : List Byte} :
    b64Value (c0 :: c1 :: c2 :: c3 :: rest) = some out ↔
      ∃ s0 s1 s2 s3 tl, sym c0 = some s0 ∧ sym c1 = some s1 ∧ sym c2 = some s2 ∧ sym c3 = some s3 ∧
        b64Value rest = some tl ∧ out = group4 s0 s1 s2 s3 ++ tl := by
  rw [b64Value]
  cases sym c0 <;> cases sym c1 <;> cases sym c2 <;> cases sym c3 <;> cases b64Value rest <;> simp [eq_comm]

theorem hexValue_length {cs : List Char16} {out : List Byte} (h : hexValue cs = some out) :
    cs.length = 2 * out.length := by
  match cs with
  | [] => cases h; rfl
  | [_] => cases h
  | c0 :: c1 :: rest =>
    obtain ⟨hi, lo, tl, -, -, ht, rfl⟩ := hexValue_cons.1 h
    have := hexValue_length ht
    simp only [List.length_cons]; omega

theorem b64Value_length {cs : List Char16} {out : List Byte} (h : b64Value cs = some out) :
    cs.length % 4 ≠ 1 ∧ out.length = reqB64dec cs.length := by
  match cs with
  | [] => cases h; simp [reqB64dec]
  | [_] => cases h
  | [c0, c1] => obtain ⟨s0, s1, -, -, rfl⟩ := b64Value_two.1 h; simp [group2, reqB64dec]
  | [c0, c1, c2] => obtain ⟨s0, s1, s2, -, -, -, rfl⟩ := b64Value_three.1 h; simp [group3, reqB64dec]
  | c0 :: c1 :: c2 :: c3 :: rest =>
    obtain ⟨s0, s1, s2, s3, tl, -, -, -, -, ht, rfl⟩ := b64Value_cons.1 h
    have := b64Value_length ht
    simp only [List.length_cons, List.length_append, group4, List.length_nil, reqB64dec] at this ⊢; omega

/-- A text is a base16 text exactly when its length is even and every character has a nibble. -/
theorem hexValue_isSome (cs : List Char16) :
    (hexValue cs).isSome ↔ cs.length % 2 = 0 ∧ ∀ c ∈ cs, (nib c).isSome := by
  match cs with
  | [] => simp [hexValue]
  | [_] => simp [hexValue]
  | c0 :: c1 :: rest =>
    have ih := hexValue_isSome rest
    simp only [Option.isSome_iff_exists, hexValue_cons, List.length_cons, List.forall_mem_cons] at ih ⊢
    constructor
    · rintro ⟨_, hi, lo, tl, h0, h1, h2, -⟩
      obtain ⟨hl, hc⟩ := ih.1 ⟨tl, h2⟩
      exact ⟨by omega, ⟨hi, h0⟩, ⟨lo, h1⟩, hc⟩
    · rintro ⟨hl, ⟨hi, h0⟩, ⟨lo, h1⟩, hc⟩
      obtain ⟨tl, h2⟩ := ih.2 ⟨by omega, hc⟩
      exact ⟨_, hi, lo, tl, h0, h1, h2, rfl⟩

/-- A text is a base64url text exactly when no character is left alone and every character has a symbol value. -/
theorem b64Value_isSome (cs : List Char16) :
    (b64Value cs).isSome ↔ cs.length % 4 ≠ 1 ∧ ∀ c ∈ cs, (sym c).isSome := by
  match cs with
  | [] => simp [b64Value]
  | [_] => simp [b64Value]
  | [c0, c1] =>
    rw [b64Value]; cases h0 : sym c0 <;> cases h1 : sym c1 <;> simp [h0, h1]
  | [c0, c1, c2] =>
    rw [b64Value]; cases h0 : sym c0 <;> cases h1 : sym c1 <;> cases h2 : sym c2 <;> simp [h0, h1, h2]
  | c0 :: c1 :: c2 :: c3 :: rest =>
    have ih := b64Value_isSome rest
    simp only [Option.isSome_iff_exists, b64Value_cons, List.length_cons, List.forall_mem_cons] at ih ⊢
    constructor
    · rintro ⟨_, s0, s1, s2, s3, tl, h0, h1, h2, h3, ht, -⟩
      obtain ⟨hl, hc⟩ := ih.1 ⟨tl, ht⟩
      exact ⟨by omega, ⟨s0, h0⟩, ⟨s1, h1⟩, ⟨s2, h2⟩, ⟨s3, h3⟩, hc⟩
    · rintro ⟨hl, ⟨s0, h0⟩, ⟨s1, h1⟩, ⟨s2, h2⟩, ⟨s3, h3⟩, hc⟩
      obtain ⟨tl, ht⟩ := ih.2 ⟨by omega, hc⟩
      exact ⟨_, s0, s1, s2, s3, tl, h0, h1, h2, h3, ht, rfl⟩

/-- The trimmed length is no longer than the length. -/
theorem trimLen_le (src : List Char16) (L : Nat) : trimLen src L ≤ L := by
  induction L with
  | zero => exact Nat.le_refl 0
  | succ L ih => simp only [trimLen]; split <;> omega

end Sys2Proof.Machine
end

