-- ==== Sys2Proof/Laws/PerInstr.lean ====
section
/-! SUPPORT. A statement about each instruction as syntax: its word is the one its row of spec/opcode_table.json gives. -/

namespace Sys2Proof.Laws.TableRow

/-- `match` of the instruction's row in spec/opcode_table.json. -/
def rowMatch : Instr → BitVec 8
  | .b16encL => 0x00
  | .b16encU => 0x04
  | .b16dec _ => 0x01
  | .b64enc => 0x02
  | .b64encP => 0x06
  | .b64dec _ => 0x03
  | .b64decT _ => 0x07

/-- `mask` of the instruction's row in spec/opcode_table.json. -/
def rowMask : Instr → BitVec 8
  | .b16encL | .b16encU | .b64enc | .b64encP => 0xFF
  | .b16dec _ | .b64dec _ | .b64decT _ => 0xF7

/-- The instruction is well formed, its word matches its row, and bit 3 of the word is its `NULL` bit. -/
def Statement (i : Instr) : Prop :=
  i.wellFormed = true ∧ encode i &&& rowMask i = rowMatch i ∧ cmdNull (encode i) = i.null

theorem b16encL : Statement .b16encL := by unfold Statement; decide
theorem b16encU : Statement .b16encU := by unfold Statement; decide
theorem b16dec (null : Bool) : Statement (.b16dec null) := by cases null <;> unfold Statement <;> decide
theorem b64enc : Statement .b64enc := by unfold Statement; decide
theorem b64encP : Statement .b64encP := by unfold Statement; decide
theorem b64dec (null : Bool) : Statement (.b64dec null) := by cases null <;> unfold Statement <;> decide
theorem b64decT (null : Bool) : Statement (.b64decT null) := by cases null <;> unfold Statement <;> decide

end Sys2Proof.Laws.TableRow
end

