-- ==== Sys2Proof/Laws/Step.lean ====
section
/-! SUPPORT. Everything each command and one step can do when they go on. -/

namespace Sys2Proof.Machine

theorem execB16dec_null (s : State) : execB16dec true s = .next (s.raise .nullInput) := rfl

theorem execB64dec_null (s : State) : execB64dec true s = .next (s.raise .nullInput) := rfl

theorem execB64decT_null (s : State) : execB64decT true s = .next (s.raise .nullInput) := rfl

theorem execB16dec_odd {s : State} (h : s.srcLen.toNat % 2 = 1) :
    execB16dec false s = .next (s.raise .format) := by simp [execB16dec, h]

theorem execB16dec_even {s : State} (h : s.srcLen.toNat % 2 = 0) :
    execB16dec false s = decodePass s.srcLen.toNat (reqB16dec s.srcLen.toNat) hexValue s := by
  simp [execB16dec, h]

theorem execB64dec_present (s : State) :
    execB64dec false s = decodePass s.srcLen.toNat (reqB64dec s.srcLen.toNat) b64Value s := rfl

theorem execB64decT_present {s : State} (h : s.srcLen.toNat ≤ s.chars.length) :
    execB64decT false s =
      decodePass (trimLen s.chars s.srcLen.toNat) (reqB64dec (trimLen s.chars s.srcLen.toNat)) b64Value s := by
  simp [execB64decT, Nat.not_lt.mpr h]

/-- `REQ` of a command, whatever it is. -/
def State.required (i : Instr) (s : State) : Nat :=
  match i with
  | .b16encL | .b16encU => reqB16enc s.srcLen.toNat
  | .b16dec _ => reqB16dec s.srcLen.toNat
  | .b64enc | .b64encP => reqB64enc s.srcLen.toNat
  | .b64dec _ => reqB64dec s.srcLen.toNat
  | .b64decT _ => reqB64dec (trimLen s.chars s.srcLen.toNat)

/-- The number of source elements a command works on: the trimmed length for `B64DEC.T`, else `SRC_LEN`. -/
def State.sourceLength (i : Instr) (s : State) : Nat :=
  match i with
  | .b64decT _ => trimLen s.chars s.srcLen.toNat
  | .b16encL | .b16encU | .b16dec _ | .b64enc | .b64encP | .b64dec _ => s.srcLen.toNat

/-- The text an encoder makes of its source. -/
def textOf : Instr → List Byte → List Char16
  | .b16encL => hexText false
  | .b16encU => hexText true
  | .b64enc => b64Text false
  | .b64encP => b64Text true
  | .b16dec _ | .b64dec _ | .b64decT _ => fun _ => []

/-- The count an encoder reports for `n` source bytes. -/
def countOf : Instr → Nat → Nat
  | .b16encL | .b16encU => reqB16enc
  | .b64enc => countB64enc false
  | .b64encP => countB64enc true
  | .b16dec _ | .b64dec _ | .b64decT _ => fun _ => 0

/-- The bytes a decoder makes of its text, if it is one. -/
def valueOf : Instr → List Char16 → Option (List Byte)
  | .b16dec _ => hexValue
  | .b64dec _ | .b64decT _ => b64Value
  | .b16encL | .b16encU | .b64enc | .b64encP => fun _ => none

theorem exec_encoder {i : Instr} (h : i.isDecoder = false) (s : State) :
    exec i s = encodeCommand (s.required i) (countOf i s.srcLen.toNat) (textOf i) s := by
  cases i <;> first | rfl | cases h

theorem exec_null {i : Instr} (h : i.null = true) (s : State) : exec i s = .next (s.raise .nullInput) := by
  cases i <;> simp only [Instr.null] at h <;> first | cases h; done | (subst h; rfl)

/-- A decoder with its input present and, for `B64DEC.T`, its source there to be trimmed. -/
theorem exec_decoder {i : Instr} (hd : i.isDecoder = true) (hn : i.null = false) {s : State}
    (he : i = .b16dec false → s.srcLen.toNat % 2 = 0) (ht : i = .b64decT false → s.srcLen.toNat ≤ s.chars.length) :
    exec i s = decodePass (s.sourceLength i) (s.required i) (valueOf i) s := by
  cases i with
  | b16encL | b16encU | b64enc | b64encP => cases hd
  | b16dec null => simp only [Instr.null] at hn; subst hn; exact execB16dec_even (he rfl)
  | b64dec null => simp only [Instr.null] at hn; subst hn; rfl
  | b64decT null => simp only [Instr.null] at hn; subst hn; exact execB64decT_present (ht rfl)

theorem text_length {i : Instr} (h : i.isDecoder = false) (bs : List Byte) : (textOf i bs).length = countOf i bs.length := by
  cases i with
  | b16encL => exact hexText_length false bs
  | b16encU => exact hexText_length true bs
  | b64enc => exact b64Text_length false bs
  | b64encP => exact b64Text_length true bs
  | b16dec _ | b64dec _ | b64decT _ => cases h

theorem count_le_required {i : Instr} (h : i.isDecoder = false) (s : State) :
    countOf i s.srcLen.toNat ≤ s.required i := by
  cases i with
  | b16encL | b16encU => exact Nat.le_refl _
  | b64enc => exact countB64enc_le false _
  | b64encP => exact countB64enc_le true _
  | b16dec _ | b64dec _ | b64decT _ => cases h

/-- The bytes a decoder makes are as many as `REQ` says. -/
theorem value_length {i : Instr} {s : State} {out : List Byte} (hl : s.sourceLength i ≤ s.chars.length)
    (h : valueOf i (s.chars.take (s.sourceLength i)) = some out) : out.length = s.required i := by
  cases i with
  | b16encL | b16encU | b64enc | b64encP => cases h
  | b16dec _ =>
    have := hexValue_length h
    simp only [List.length_take, State.sourceLength] at this hl
    simp only [State.required, reqB16dec]; omega
  | b64dec _ | b64decT _ =>
    have := (b64Value_length h).2
    simp only [List.length_take, Nat.min_eq_left hl] at this
    exact this

/-- Everything a command that goes on can do. -/
theorem exec_next {i : Instr} {s t : State} (h : exec i s = .next t) :
    (i.null = true ∧ t = s.raise .nullInput) ∨
    (i = .b16dec false ∧ s.srcLen.toNat % 2 = 1 ∧ t = s.raise .format) ∨
    (i.null = false ∧ s.dstCap.toNat < s.required i ∧ t = s.raise .capacity) ∨
    (i.isDecoder = false ∧ s.required i ≤ s.dstCap.toNat ∧ s.srcLen.toNat ≤ s.bytes.length ∧
      s.required i ≤ s.chars.length ∧ t = s.afterEncode (countOf i s.srcLen.toNat) (textOf i)) ∨
    (i.isDecoder = true ∧ i.null = false ∧ (i = .b16dec false → s.srcLen.toNat % 2 = 0) ∧
      s.srcLen.toNat ≤ s.chars.length ∧ s.required i ≤ s.dstCap.toNat ∧ s.sourceLength i ≤ s.chars.length ∧
      s.required i ≤ s.bytes.length ∧
      ((∃ out, valueOf i (s.chars.take (s.sourceLength i)) = some out ∧ t = s.afterDecode (s.required i) out) ∨
       (valueOf i (s.chars.take (s.sourceLength i)) = none ∧ t = s.afterSpoil (s.required i)))) := by
  cases hd : i.isDecoder
  · have hn : i.null = false := by cases i <;> first | rfl | cases hd
    rw [exec_encoder hd] at h
    rcases encodeCommand_next h with ⟨h1, h2⟩ | ⟨h1, h2, h3, h4⟩
    · exact .inr (.inr (.inl ⟨hn, h1, h2⟩))
    · exact .inr (.inr (.inr (.inl ⟨rfl, h1, h2, h3, h4⟩)))
  · cases hn : i.null
    · by_cases ho : i = .b16dec false ∧ s.srcLen.toNat % 2 = 1
      · obtain ⟨rfl, ho⟩ := ho
        rw [show exec (.b16dec false) s = execB16dec false s from rfl, execB16dec_odd ho] at h
        cases h; exact .inr (.inl ⟨rfl, ho, rfl⟩)
      · have ht : i = .b64decT false → s.srcLen.toNat ≤ s.chars.length := by
          rintro rfl
          by_contra hc
          simp [exec, execB64decT, Nat.not_le.mp hc] at h
        have he : i = .b16dec false → s.srcLen.toNat % 2 = 0 := fun e =>
          (Nat.mod_two_eq_zero_or_one _).resolve_right fun o => ho ⟨e, o⟩
        rw [exec_decoder hd hn he ht] at h
        rcases decodePass_next h with ⟨h1, h2⟩ | ⟨h1, h2, h3, h4⟩
        · exact .inr (.inr (.inl ⟨rfl, h1, h2⟩))
        · have hs : s.srcLen.toNat ≤ s.chars.length := by
            cases i with
            | b64decT null => simp only [Instr.null] at hn; subst hn; exact ht rfl
            | b16encL | b16encU | b16dec _ | b64enc | b64encP | b64dec _ => exact h2
          exact .inr (.inr (.inr (.inr ⟨rfl, rfl, he, hs, h1, h2, h3, h4⟩)))
    · rw [exec_null hn] at h; cases h; exact .inl ⟨rfl, rfl⟩

/-- What a step does while no reset is signalled. -/
theorem step_of_no_reset {s : State} (h : s.resetLine = false) :
    step s = if s.busy then
        match decode s.cmd with
        | .ok i => exec i s
        | .error _ => .next (s.raise .illegal)
      else .next s := by
  unfold step
  rw [h]
  rfl

theorem step_of_reset {s : State} (h : s.resetLine = true) : step s = .next s.takeReset := by simp [step, h]

theorem step_of_idle {s : State} (hr : s.resetLine = false) (hb : s.busy = false) : step s = .next s := by
  simp [step, hr, hb]

theorem step_of_legal {s : State} {i : Instr} (hr : s.resetLine = false) (hb : s.busy = true)
    (hd : decode s.cmd = .ok i) : step s = exec i s := by
  simp [step, hr, hb, hd]

theorem step_of_illegal {s : State} {e : DecodeError} (hr : s.resetLine = false) (hb : s.busy = true)
    (hd : decode s.cmd = .error e) : step s = .next (s.raise .illegal) := by
  simp [step, hr, hb, hd]

/-- Everything one step that goes on can do: take a reset, wait, answer an illegal word, or run a legal one. -/
theorem step_next {s t : State} (h : step s = .next t) :
    (s.resetLine = true ∧ t = s.takeReset) ∨
    (s.resetLine = false ∧ s.busy = false ∧ t = s) ∨
    (s.resetLine = false ∧ s.busy = true ∧ ∃ e, decode s.cmd = .error e ∧ t = s.raise .illegal) ∨
    (s.resetLine = false ∧ s.busy = true ∧ ∃ i, decode s.cmd = .ok i ∧ exec i s = .next t) := by
  cases hr : s.resetLine
  · cases hb : s.busy
    · rw [step_of_idle hr hb] at h; cases h; exact .inr (.inl ⟨rfl, rfl, rfl⟩)
    · cases hd : decode s.cmd with
      | ok i => rw [step_of_legal hr hb hd] at h; exact .inr (.inr (.inr ⟨rfl, rfl, i, rfl, h⟩))
      | error e => rw [step_of_illegal hr hb hd] at h; cases h; exact .inr (.inr (.inl ⟨rfl, rfl, e, rfl, rfl⟩))
  · rw [step_of_reset hr] at h; cases h; exact .inl ⟨rfl, rfl⟩

end Sys2Proof.Machine
end

