-- ==== Sys2Proof/Tests/Slice0.lean ====
section
/-! SUPPORT. Tests on fixed values, each expected value from the vector or rule of spec/ its comment names, and for every
obligation with hypotheses a state and operands that meet them. -/

namespace Sys2Proof.Tests

open Sys2Proof.Machine Sys2Proof.Certificates Sys2Proof.Safety

/-- A block with a command in progress, just after reset but for its port. -/
def port (w : BitVec 8) (n cap : Nat) (bytes : List Byte) (chars : List Char16) : State :=
  { State.reset with
    cmd := w, srcLen := BitVec.ofNat _ n, dstCap := BitVec.ofNat _ cap, busy := true, bytes := bytes, chars := chars }

/-- The next state, if there is one. -/
def after : Answer → Option State
  | .next t => some t
  | .fault _ => none
  | .refused _ => none

/-- A response as the vectors write it. -/
def response {lenBits : Nat} (ok : Bool) (cause : BitVec 3) (count : Nat) : Resp lenBits :=
  { ok := ok, cause := cause, count := BitVec.ofNat _ count }

/-- The next state of a platform, if there is one. -/
def platformAfter : Host.Outcome System Fault Refusal → Option System
  | .next S => some S
  | .fault _ => none
  | .refused _ => none

/-- A block with 8-bit lengths and a command in progress, its buffers empty. -/
def narrow (w : BitVec 8) (n cap : Nat) : State :=
  { State.resetAt 8 with cmd := w, srcLen := BitVec.ofNat _ n, dstCap := BitVec.ofNat _ cap, busy := true }

/-- What the host reads as the response, the count as a number. -/
def heard (s : State) : Bool × BitVec 3 × Nat := (s.resp.ok, s.resp.cause, s.resp.count.toNat)

/-! ### Well-formedness -/

/-- U10: a source of 2^32 elements cannot be expressed. -/
theorem test_source_too_long_refused :
    Command.srcLenFits 32 { instr := .b16encL, srcLen := 4294967296, dstCap := 0 } = false ∧
    Command.wellFormed 32 { instr := .b16encL, srcLen := 4294967296, dstCap := 0 } = false := by decide

/-- R7: neither can a capacity of 2^32 elements. -/
theorem test_capacity_too_large_refused :
    Command.dstCapFits 32 { instr := .b64enc, srcLen := 0, dstCap := 4294967296 } = false ∧
    Command.wellFormed 32 { instr := .b64enc, srcLen := 0, dstCap := 4294967296 } = false := by decide

/-- R50: with `null` the length is written as 0. -/
theorem test_null_with_a_length_refused :
    Command.nullHasNoLength { instr := .b16dec true, srcLen := 1, dstCap := 0 } = false ∧
    Command.wellFormed 32 { instr := .b16dec true, srcLen := 1, dstCap := 0 } = false := by decide

/-- R50: its two example lines, with their registers. -/
theorem test_assemble :
    Command.assemble 32 { instr := .b16encU, srcLen := 2, dstCap := 4 } = (0x04, 2, 4) ∧
    Command.assemble 32 { instr := .b64decT true, srcLen := 0, dstCap := 0 } = (0x0F, 0, 0) ∧
    Command.wellFormed 32 { instr := .b64decT true, srcLen := 0, dstCap := 4294967295 } = true := by decide

/-! ### Decoding: the words of R46 and R47, bit by bit from R40 to R44 -/

theorem test_decode_b16encL : decode 0b00000000#8 = .ok .b16encL := rfl
theorem test_decode_b16encU : decode 0b00000100#8 = .ok .b16encU := rfl
theorem test_decode_b16dec : decode 0b00000001#8 = .ok (.b16dec false) := rfl
theorem test_decode_b16dec_null : decode 0b00001001#8 = .ok (.b16dec true) := rfl
theorem test_decode_b64enc : decode 0b00000010#8 = .ok .b64enc := rfl
theorem test_decode_b64encP : decode 0b00000110#8 = .ok .b64encP := rfl
theorem test_decode_b64dec : decode 0b00000011#8 = .ok (.b64dec false) := rfl
theorem test_decode_b64dec_null : decode 0b00001011#8 = .ok (.b64dec true) := rfl
theorem test_decode_b64decT : decode 0b00000111#8 = .ok (.b64decT false) := rfl
theorem test_decode_b64decT_null : decode 0b00001111#8 = .ok (.b64decT true) := rfl

/-- V5.3 to V5.6. -/
theorem test_decode_illegal_fields :
    decode 0b00000101#8 = .error .flagOnB16dec ∧ decode 0b00001101#8 = .error .flagOnB16dec ∧
    decode 0b00001000#8 = .error .nullOnEncoder ∧ decode 0b00001100#8 = .error .nullOnEncoder ∧
    decode 0b00001010#8 = .error .nullOnEncoder ∧ decode 0b00001110#8 = .error .nullOnEncoder :=
  ⟨rfl, rfl, rfl, rfl, rfl, rfl⟩

/-- V5.7: 0x10 is not B16ENC.L and 0x81 is not B16DEC. -/
theorem test_decode_reserved_bits :
    decode 0b00010000#8 = .error .reservedBits ∧ decode 0b10000001#8 = .error .reservedBits ∧
    decode 0b11111111#8 = .error .reservedBits := ⟨rfl, rfl, rfl⟩

/-! ### Steps -/

/-- S1: `"0ff0"`. -/
theorem test_b16encL : after (step (port 0x00 2 4 [0x0F, 0xF0] [0xEEEE, 0xEEEE, 0xEEEE, 0xEEEE])) =
    some { port 0x00 2 4 [0x0F, 0xF0] [0x0030, 0x0066, 0x0066, 0x0030] with
      busy := false, resp := response true 0 4 } := by decide

/-- R54: a capacity of 2n − 1 fails and writes nothing. -/
theorem test_b16encL_capacity : after (step (port 0x00 2 3 [0x0F, 0xF0] [0xEEEE, 0xEEEE, 0xEEEE])) =
    some { port 0x00 2 3 [0x0F, 0xF0] [0xEEEE, 0xEEEE, 0xEEEE] with
      busy := false, resp := response false 3 0 } := by decide

/-- P1, step 1: the first two bytes of it, and an element that is not touched. -/
theorem test_b16encU : (after (step (port 0x04 2 5 [0xDE, 0xAD] [0xEEEE, 0xEEEE, 0xEEEE, 0xEEEE, 0xEEEE]))).map State.chars =
    some [0x0044, 0x0045, 0x0041, 0x0044, 0xEEEE] := by decide

/-- S2, its last six characters: mixed case. -/
theorem test_b16dec : after (step (port 0x01 6 4 [0xEE, 0xEE, 0xEE, 0xEE]
      [0x0062, 0x0063, 0x0044, 0x0045, 0x0046, 0x0030])) =
    some { port 0x01 6 4 [0xBC, 0xDE, 0xF0, 0xEE] [0x0062, 0x0063, 0x0044, 0x0045, 0x0046, 0x0030] with
      busy := false, resp := response true 0 3 } := by decide

/-- P3, steps 4 and 5: capacity before characters, then the characters. -/
theorem test_b16dec_order :
    (after (step (port 0x01 4 1 [0xEE] [0x0030, 0x0067, 0x0030, 0x0067]))).map heard = some (false, 3, 0) ∧
    (after (step (port 0x01 4 2 [0xEE, 0xEE] [0x0030, 0x0067, 0x0030, 0x0067]))).map heard =
      some (false, 2, 0) := by decide

/-- S3: `"-g"` and two untouched slots. -/
theorem test_b64enc : after (step (port 0x02 1 4 [0xFA] [0xEEEE, 0xEEEE, 0xEEEE, 0xEEEE])) =
    some { port 0x02 1 4 [0xFA] [0x002D, 0x0067, 0xEEEE, 0xEEEE] with
      busy := false, resp := response true 0 2 } := by decide

/-- P4, step 1: the capacity asked for is 4, though 2 would be written. -/
theorem test_b64enc_capacity : (after (step (port 0x02 1 3 [0xFA] [0xEEEE, 0xEEEE, 0xEEEE]))).map heard =
    some (false, 3, 0) := by decide

/-- S4: `"_wA="`. -/
theorem test_b64encP : after (step (port 0x06 2 4 [0xFF, 0x00] [0xEEEE, 0xEEEE, 0xEEEE, 0xEEEE])) =
    some { port 0x06 2 4 [0xFF, 0x00] [0x005F, 0x0077, 0x0041, 0x003D] with
      busy := false, resp := response true 0 4 } := by decide

/-- P2, step 1: `"FPucA9k="`. -/
theorem test_b64encP_two_groups :
    (after (step (port 0x06 5 8 [0x14, 0xFB, 0x9C, 0x03, 0xD9] (List.replicate 8 0xEEEE)))).map State.chars =
    some [0x0046, 0x0050, 0x0075, 0x0063, 0x0041, 0x0039, 0x006B, 0x003D] := by decide

/-- V4.11: `"-_-_"`, where the second and third bytes need the truncation. -/
theorem test_b64dec : after (step (port 0x03 4 3 [0xEE, 0xEE, 0xEE] [0x002D, 0x005F, 0x002D, 0x005F])) =
    some { port 0x03 4 3 [0xFB, 0xFF, 0xBF] [0x002D, 0x005F, 0x002D, 0x005F] with
      busy := false, resp := response true 0 3 } := by decide

/-- R71: `"_wA="` fails with `CAPACITY` at a capacity of 2 and with `FORMAT` at 3. -/
theorem test_b64dec_untrimmed :
    (after (step (port 0x03 4 2 [0xEE, 0xEE] [0x005F, 0x0077, 0x0041, 0x003D]))).map heard =
      some (false, 3, 0) ∧
    (after (step (port 0x03 4 3 [0xEE, 0xEE, 0xEE] [0x005F, 0x0077, 0x0041, 0x003D]))).map heard =
      some (false, 2, 0) := by decide

/-- S5: `"AA=="`. -/
theorem test_b64decT : after (step (port 0x07 4 3 [0xEE, 0xEE, 0xEE] [0x0041, 0x0041, 0x003D, 0x003D])) =
    some { port 0x07 4 3 [0x00, 0xEE, 0xEE] [0x0041, 0x0041, 0x003D, 0x003D] with
      busy := false, resp := response true 0 1 } := by decide

/-- V4.20, V4.24 and V4.52: an `=` that is not trailing, one character alone, and 0x013D, which is no `=`. -/
theorem test_b64decT_format :
    (after (step (port 0x07 4 3 [0, 0, 0] [0x0041, 0x0041, 0x003D, 0x0041]))).map heard = some (false, 2, 0) ∧
    (after (step (port 0x07 4 0 [] [0x0041, 0x003D, 0x003D, 0x003D]))).map heard = some (false, 2, 0) ∧
    (after (step (port 0x07 4 3 [0, 0, 0] [0x0041, 0x0041, 0x003D, 0x013D]))).map heard =
      some (false, 2, 0) := by decide

/-- V5.2: absent input, the length ignored. -/
theorem test_null :
    (after (step (port 0x09 9 2 [0xEE, 0xEE] []))).map heard = some (false, 1, 0) ∧
    (after (step (port 0x0B 9 2 [0xEE, 0xEE] []))).map heard = some (false, 1, 0) ∧
    (after (step (port 0x0F 9 2 [0xEE, 0xEE] []))).map heard = some (false, 1, 0) := by decide

/-- V5.8: a reserved word is not executed as its nearest legal neighbour. -/
theorem test_illegal_word : after (step (port 0x05 4 2 [0xEE, 0xEE] [0x0030, 0x0066, 0x0066, 0x0030])) =
    some { port 0x05 4 2 [0xEE, 0xEE] [0x0030, 0x0066, 0x0066, 0x0030] with
      busy := false, resp := response false 4 0 } := by decide

/-- S10b: the first command after reset, with nothing placed but its word. -/
theorem test_first_command_after_reset :
    (after (step (State.reset.withFetchWord 8 0x04))).map heard = some (true, 0, 0) := by decide

/-- P4, step 5: a reset between commands touches no buffer. -/
theorem test_reset_between_commands :
    (after (step { port 0x00 1 2 [0xFA] [0x0066, 0x0061] with busy := false, resetLine := true, resp := response true 0 2 })).map
      (fun t => (heard t, t.bytes, t.chars)) = some ((false, 0, 0), [0xFA], [0x0066, 0x0061]) := by decide

/-- S5, S11b and S6 through the host operations. -/
theorem test_host_operations :
    base64urlDecode (some [0x0041, 0x0041, 0x003D, 0x003D]) State.reset = some (.inr [0x00]) ∧
    base64urlDecode none State.reset = some (.inl .nullInputError) ∧
    base16Decode (some [0x0030]) State.reset = some (.inl .formatError) := by decide

/-! ### Witnesses: the hypotheses of each obligation are met -/

/-- S1 as a state: it serves several statements. -/
def encoding : State := port 0x00 2 4 [0x0F, 0xF0] [0xEEEE, 0xEEEE, 0xEEEE, 0xEEEE]

/-- The text `"0fF0"` with room for its two bytes. -/
def decoding : State := port 0x01 4 2 [0xEE, 0xEE] [0x0030, 0x0066, 0x0046, 0x0030]

theorem witness_StepRunsTheDecodedCommand :
    encoding.resetLine = false ∧ encoding.busy = true ∧ decode encoding.cmd = .ok .b16encL := ⟨rfl, rfl, rfl⟩

theorem witness_WaitingKeepsAllState : Idle State.reset := ⟨rfl, rfl⟩

theorem witness_IllegalWordAnswersIllegal :
    (port 0x05 4 2 [] []).resetLine = false ∧ (port 0x05 4 2 [] []).busy = true ∧
    (port 0x05 4 2 [] []).cmd ∉ legalWords.map Prod.fst ∧ (port 0x10 4 2 [] []).cmd ∉ legalWords.map Prod.fst := by decide

theorem witness_DecodeInvertsEncode : decode 0x0F = .ok (.b64decT true) := rfl

theorem witness_ResetAbandonsTheCommand :
    { encoding with resetLine := true }.resetLine = true ∧ encoding.busy = true ∧ decode encoding.cmd = .ok .b16encL ∧
    Instr.isDecoder .b16encL = false ∧ decode decoding.cmd = .ok (.b16dec false) ∧
    Instr.isDecoder (.b16dec false) = true ∧ State.reset.busy = false :=
  ⟨rfl, rfl, rfl, rfl, rfl, rfl, rfl⟩

theorem witness_TrimRemovesEveryTrailingPad :
    (4 : Nat) ≤ [0x0041, 0x0041, 0x003D, (0x003D : Char16)].length ∧ (2 : Nat) ≤ 4 ∧
    [0x0041, 0x0041, 0x003D, (0x003D : Char16)][2 - 1]? ≠ some 0x003D := by decide

theorem witness_NibbleOfExactlyTheHexCharacters : (15 : Nat) < 16 ∧ nib 0x0066 = some 15 ∧ nib 0x0046 = some 15 := by decide

theorem witness_GroupBytesAreTruncated : (63 : Nat) < 64 ∧ (group4 63 63 63 63).map BitVec.toNat = [255, 255, 255] := by decide

/-- Capacities 3 and 4 for two bytes: the two sides of the check. -/
theorem witness_B16encWritesHexPairs :
    (port 0x00 2 3 [0x0F, 0xF0] []).dstCap.toNat < 2 * (port 0x00 2 3 [0x0F, 0xF0] []).srcLen.toNat ∧
    2 * encoding.srcLen.toNat ≤ encoding.dstCap.toNat ∧ encoding.srcLen.toNat ≤ encoding.bytes.length ∧
    encoding.dstCap.toNat ≤ encoding.chars.length ∧ (1 : Nat) < encoding.srcLen.toNat ∧
    encoding.bytes[1]? = some 0xF0 := by decide

/-- One byte with capacities 3 and 4; character 1 comes from the source and character 2 is padding. -/
theorem witness_B64encWritesSixBitFields :
    let s := port 0x06 1 3 [0xFA] []
    let s' := port 0x06 1 4 [0xFA] [0, 0, 0, 0]
    s.dstCap.toNat < (s.srcLen.toNat + 2) / 3 * 4 ∧ (s'.srcLen.toNat + 2) / 3 * 4 ≤ s'.dstCap.toNat ∧
    s'.srcLen.toNat ≤ s'.bytes.length ∧ s'.dstCap.toNat ≤ s'.chars.length ∧
    6 * 1 < 8 * s'.srcLen.toNat ∧ 8 * s'.srcLen.toNat ≤ 6 * 2 := by decide

/-- Odd length; a capacity one short; a valid text; a text with a bad character. -/
theorem witness_B16decFollowsItsChecks :
    (port 0x01 1 0 [] [0x0030]).srcLen.toNat % 2 = 1 ∧
    (port 0x01 4 1 [0] []).srcLen.toNat % 2 = 0 ∧
    (port 0x01 4 1 [0] []).dstCap.toNat < (port 0x01 4 1 [0] []).srcLen.toNat / 2 ∧
    decoding.srcLen.toNat / 2 ≤ decoding.dstCap.toNat ∧ decoding.srcLen.toNat ≤ decoding.chars.length ∧
    decoding.dstCap.toNat ≤ decoding.bytes.length ∧
    (∀ i < 4, decoding.chars[i]?.bind nib = some ([0, 15, 15, 0].getD i 0)) ∧
    (port 0x01 2 1 [0] [0x0030, 0x0067]).chars[1]? = some 0x0067 ∧ nib 0x0067 = none := by decide

/-- The trimmed length of `"AA=="` is 2. -/
theorem witness_IsTrimmed : IsTrimmed [0x0041, 0x0041, 0x003D, 0x003D] 4 2 :=
  ⟨by decide, .inr (by decide), fun i h1 h2 => by interval_cases i <;> rfl⟩

/-- For both commands: a length; a capacity one short; a valid text; one character alone; a bad character. -/
theorem witness_B64decFollowsItsChecks :
    let s := port 0x07 4 1 [0] [0x0041, 0x0041, 0x003D, 0x003D]
    let s' := port 0x03 4 3 [0, 0, 0] [0x0041, 0x0041, 0x0041, 0x003D]
    IsTextLength true s 2 ∧ IsTextLength false s' 4 ∧ s.srcLen.toNat ≤ s.chars.length ∧
    (port 0x07 4 0 [] s.chars).dstCap.toNat < 2 * 3 / 4 ∧ 2 * 3 / 4 ≤ s.dstCap.toNat ∧
    s.dstCap.toNat ≤ s.bytes.length ∧ 2 % 4 ≠ 1 ∧ (∀ i < 2, s.chars[i]?.bind sym = some 0) ∧
    IsTextLength false (port 0x03 5 3 [0, 0, 0] []) 5 ∧ 5 % 4 = 1 ∧
    4 * 3 / 4 ≤ s'.dstCap.toNat ∧ s'.chars[3]? = some 0x003D ∧ sym 0x003D = none :=
  ⟨by exact witness_IsTrimmed, rfl, by decide, by decide, by decide, by decide, by decide, by decide, rfl, by decide,
    by decide, rfl, by decide⟩

/-- `exec` answers a next state with and without an absent input, with a success, and with each kind of failure. -/
theorem witness_exec_next :
    (after (exec (.b16dec true) decoding)).map heard = some (false, 1, 0) ∧
    (after (exec (.b16dec false) decoding)).map heard = some (true, 0, 2) ∧
    (after (exec .b16encL encoding)).map heard = some (true, 0, 4) ∧
    (after (exec .b64enc { encoding with dstCap := 3 })).map heard = some (false, 3, 0) ∧
    (after (exec (.b64dec false) { decoding with srcLen := 1 })).map heard = some (false, 2, 0) := by decide

theorem witness_NullInputExactlyWhenAbsent :
    Instr.null (.b16dec true) = true ∧ exec (.b16dec true) decoding = .next (failed 1 decoding) := ⟨rfl, rfl⟩

/-- A step that goes on, for a legal and for a reserved word. -/
theorem witness_CausesOfEachCommand :
    decoding.resetLine = false ∧ decoding.busy = true ∧ (after (step decoding)).isSome = true ∧
    (after (step (port 0xFF 0 0 [] []))).map heard = some (false, 4, 0) := by decide

theorem witness_FirstCauseIsReported :
    encoding.truthfulFor .b16encL = true ∧ decoding.truthfulFor (.b16dec false) = true ∧
    decode (port 0x05 0 0 [] []).cmd = .error .flagOnB16dec := ⟨by decide, by decide, rfl⟩

/-- A failure before the pass and one in it. -/
theorem witness_FailureLeavesTheRestAlone :
    let s := port 0x01 3 1 [0] [0x0030, 0x0030, 0x0030]
    let s' := port 0x01 2 1 [0] [0x0030, 0x0067]
    s.resetLine = false ∧ s.busy = true ∧ (after (step s)).map (fun t => t.resp.ok) = some false ∧
    (after (step s')).map (fun t => t.resp.ok) = some false ∧ decode s.cmd = .ok (.b16dec false) :=
  ⟨rfl, rfl, by decide, by decide, rfl⟩

theorem witness_CountBoundsWhatIsWritten :
    (after (exec (.b16dec false) decoding)).map (fun t => t.resp.ok) = some true ∧
    (after (exec .b16encL encoding)).map (fun t => t.resp.ok) = some true ∧
    (after (exec .b16encL { encoding with dstCap := 3 })).map (fun t => t.resp.ok) = some false := by decide

/-- Sources and destinations that agree only where the command looks. -/
theorem witness_CommandReadsOnlyItsOperands :
    SameCommand .b16encL encoding { encoding with bytes := [0x0F, 0xF0, 0x77], chars := [1, 2, 3, 4], draws := 5 } ∧
    SameCommand (.b16dec false) decoding { decoding with chars := [0x0030, 0x0066, 0x0046, 0x0030, 0x0067] } ∧
    (after (exec .b16encL encoding)).isSome = true := by unfold SameCommand; decide

theorem witness_NoCommandWritesItsOperands : (after (exec (.b16dec false) decoding)).isSome = true := by decide

theorem witness_EveryIssuedCommandEnds :
    encoding.resetLine = false ∧ encoding.busy = true ∧ encoding.truthful = true ∧ decoding.truthful = true ∧
    (port 0x05 9 9 [] []).truthful = true := by decide

theorem witness_StepKeepsTheInvariant :
    Inv encoding ∧ (after (step encoding)).isSome = true ∧ Inv { encoding with resetLine := true } := by decide

theorem witness_HostMovesKeepTheInvariant :
    Inv State.reset ∧ (State.reset.host (.writeCmd 0x05)).isSome = true ∧ (State.reset.host .issue).isSome = true ∧
    (State.reset.host .reset).isSome = true ∧ (State.reset.host (.presentBytes [1])).isSome = true := by decide

/-- A command issued after reset is reached. -/
theorem witness_ReachableStatesNeverStop : Reachable { State.reset with busy := true } :=
  .host .issue (.reset 32) rfl

/-- A source one short, and a destination one short. -/
theorem witness_OverstatedLengthsStop :
    exec .b16encL (port 0x00 2 4 [0x0F] [0, 0, 0, 0]) = .fault .sourceOverrun ∧
    exec .b16encL (port 0x00 2 4 [0x0F, 0xF0] [0, 0, 0]) = .fault .destinationOverrun ∧
    exec (.b64decT false) (port 0x07 2 1 [0] [0x0041]) = .fault .sourceOverrun ∧
    exec (.b16dec false) (port 0x01 2 1 [] [0x0030, 0x0030]) = .fault .destinationOverrun :=
  ⟨rfl, rfl, rfl, rfl⟩

theorem witness_B16encOutputIsInTheAlphabet :
    (after (exec (b16encInstr true) encoding)).map (fun t => (t.resp.ok, t.resp.count.toNat, t.chars[1]?)) =
    some (true, 4, some 0x0046) := by decide

/-- `"0fF0"` and `"0Ff0"`. -/
theorem witness_B16decIgnoresCase :
    (∀ p ∈ decoding.chars.zip ([0x0030, 0x0046, 0x0066, 0x0030] : List Char16), CaseVariant p.1 p.2) ∧
    (after (exec (.b16dec false) decoding)).isSome = true := by
  refine ⟨?_, by decide⟩
  rw [show decoding.chars.zip ([0x0030, 0x0046, 0x0066, 0x0030] : List Char16) =
    ([(0x0030, 0x0030), (0x0066, 0x0046), (0x0046, 0x0066), (0x0030, 0x0030)] : List (Char16 × Char16)) from rfl]
  simp only [List.forall_mem_cons]
  exact ⟨.inl rfl, .inr ⟨5, by decide, .inl ⟨rfl, rfl⟩⟩, .inr ⟨5, by decide, .inr ⟨rfl, rfl⟩⟩, .inl rfl, by simp⟩

theorem witness_Base16RoundTrip :
    let s' := port 0x01 4 2 [0, 0] [0x0030, 0x0066, 0x0066, 0x0030]
    encoding.srcLen.toNat ≤ encoding.bytes.length ∧ encoding.dstCap.toNat ≤ encoding.chars.length ∧
    2 * encoding.srcLen.toNat ≤ encoding.dstCap.toNat ∧
    (after (exec (b16encInstr false) encoding)).map (fun t => (t.resp.count.toNat, t.chars.take 4)) =
      some (s'.srcLen.toNat, s'.chars.take 4) ∧
    encoding.srcLen.toNat ≤ s'.dstCap.toNat ∧ s'.dstCap.toNat ≤ s'.bytes.length := by decide

/-- One byte with padding, so that both decoders have their clause. -/
theorem witness_Base64urlRoundTrip :
    let s := port 0x06 1 4 [0xFA] [0, 0, 0, 0]
    let s' := port 0x07 4 3 [0, 0, 0] [0x002D, 0x0067, 0x003D, 0x003D]
    s.srcLen.toNat ≤ s.bytes.length ∧ s.dstCap.toNat ≤ s.chars.length ∧ (s.srcLen.toNat + 2) / 3 * 4 ≤ s.dstCap.toNat ∧
    (after (exec (b64encInstr true) s)).map (fun t => (t.resp.count.toNat, t.chars.take 4)) = some (s'.srcLen.toNat, s'.chars.take 4) ∧
    s'.dstCap.toNat ≤ s'.bytes.length ∧ s.srcLen.toNat ≤ s'.dstCap.toNat ∧ s.srcLen.toNat % 3 ≠ 0 := by decide

/-- `"Zg"` and `"Zh"` (V4.46), and `"Zm8"` and `"Zm9"` (V4.47). -/
theorem witness_SpareBitsAreNotExamined :
    let s := port 0x03 2 1 [0] [0x005A, 0x0067]
    let s' := port 0x03 3 2 [0, 0] [0x005A, 0x006D, 0x0038]
    s.srcLen.toNat ≤ s.chars.length ∧ s.chars[s.srcLen.toNat - 1]? = some 0x0067 ∧ sym 0x0067 = some 32 ∧
    sym 0x0068 = some 33 ∧ s.srcLen.toNat % 4 = 2 ∧ 32 / 16 = 33 / 16 ∧ (after (exec (.b64dec false) s)).isSome = true ∧
    s'.srcLen.toNat ≤ s'.chars.length ∧ s'.chars[s'.srcLen.toNat - 1]? = some 0x0038 ∧ sym 0x0038 = some 60 ∧
    sym 0x0039 = some 61 ∧ s'.srcLen.toNat % 4 = 3 ∧ 60 / 4 = 61 / 4 ∧
    (after (exec (.b64dec false) s')).isSome = true := by decide

/-- The least source lengths at the default width, and one at a width of 8. -/
theorem witness_RequiredCapacityNeverWraps :
    2 ^ (port 0x00 0x80000000 0 [] []).lenBits ≤ 2 * (port 0x00 0x80000000 0 [] []).srcLen.toNat ∧
    2 ^ (port 0x02 0xBFFFFFFE 0 [] []).lenBits ≤ ((port 0x02 0xBFFFFFFE 0 [] []).srcLen.toNat + 2) / 3 * 4 ∧
    2 ^ (narrow 0x00 128 255).lenBits ≤ 2 * (narrow 0x00 128 255).srcLen.toNat := by decide

/-- R7 at a width of 8: `REQ` = 256 is above every capacity, and wrapped it would be 0. -/
theorem test_required_capacity_of_eight_bits :
    (after (step (narrow 0x00 128 255))).map heard = some (false, 3, 0) := by decide

theorem witness_DocumentedCapacityIsEnough :
    (after (exec .b16encL encoding)).isSome = true ∧ 2 * encoding.srcLen.toNat ≤ encoding.dstCap.toNat ∧
    (after (exec (.b16dec false) decoding)).isSome = true ∧ decoding.srcLen.toNat / 2 ≤ decoding.dstCap.toNat ∧
    (let s := port 0x07 4 3 [0, 0, 0] [0x0041, 0x0041, 0x003D, 0x003D]
     (after (exec (.b64decT false) s)).isSome = true ∧ s.srcLen.toNat * 3 / 4 ≤ s.dstCap.toNat) ∧
    (let s := port 0x02 1 4 [0xFA] [0, 0, 0, 0]
     (after (exec .b64enc s)).isSome = true ∧ (s.srcLen.toNat + 2) / 3 * 4 ≤ s.dstCap.toNat) := by decide

theorem witness_UntrimmedPaddingFails :
    let s := port 0x03 4 3 [0, 0, 0] [0x005F, 0x0077, 0x0041, 0x003D]
    0 < s.srcLen.toNat ∧ s.truthfulFor (.b64dec false) = true ∧ s.chars[s.srcLen.toNat - 1]? = some 0x003D := by decide

theorem witness_HostOperationsRoundTrip :
    Idle State.reset ∧ 2 * [(0xFA : Byte)].length < 2 ^ State.reset.lenBits ∧
    ([(0xFA : Byte)].length + 2) / 3 * 4 < 2 ^ State.reset.lenBits := ⟨⟨rfl, rfl⟩, by decide, by decide⟩

/-- An idle block; an odd text and a bad character; a trimmed text of one character alone. -/
theorem witness_RaisingFormsRaise :
    Idle State.reset ∧ [(0x0030 : Char16)].length % 2 = 1 ∧
    (∃ c ∈ [(0x0030 : Char16), 0x0067], nib c = none) ∧
    IsTrimmed [0x0041, 0x003D] 2 1 ∧ 1 % 4 = 1 ∧ (∃ c ∈ [(0x0041 : Char16), 0x002B].take 2, sym c = none) :=
  ⟨⟨rfl, rfl⟩, by decide, ⟨0x0067, by decide, by decide⟩,
    ⟨by decide, .inr (by decide), fun i h1 h2 => by interval_cases i; rfl⟩, by decide, ⟨0x002B, by decide, by decide⟩⟩

theorem witness_AllocatingDecodesNeverLackCapacity :
    (base16DecodeCommand (some [0x0030, 0x0030]) State.reset).isSome = true ∧
    (base64urlDecodeCommand (some [0x0041, 0x0041, 0x003D, 0x003D]) State.reset).isSome = true := by decide

/-- Two blocks, the second executing: its step, and a reset by its host. -/
theorem witness_InstancesAreIndependent :
    (System.mk [State.reset, encoding]).instances[1]? = some encoding ∧ (after (step encoding)).isSome = true ∧
    (platformAfter ((System.mk [State.reset, encoding]).stepAt 1)).map (fun S => S.instances[0]?) =
      some (some State.reset) ∧
    (encoding.host .reset).isSome = true ∧ ((System.mk [State.reset, encoding]).hostAt 1 .reset).isSome = true := by decide

theorem witness_InvariantStatesNeverStop : Inv encoding ∧ Inv State.reset ∧ Inv { encoding with resetLine := true } := by
  decide

theorem witness_InstanceStepsCommute :
    (0 : Nat) ≠ 1 ∧ (platformAfter ((System.mk [decoding, encoding]).stepAt 0)).isSome = true ∧
    (platformAfter ((System.mk [decoding, encoding]).stepAt 1)).isSome = true := by decide

theorem witness_EveryInstanceCanBeUsed : (2 : Nat) < 3 ∧ (System.resetAt 3 16).instances[2]? = some (State.resetAt 16) := by
  decide

/-- Log entry 19: a command issued under a reset that is still to be taken is abandoned by the step that takes it. -/
theorem test_issue_under_a_signalled_reset :
    ((({ State.reset with resetLine := true }).host .issue).bind fun s => after (step s)).map
      (fun t : State => (t.busy, heard t)) = some (false, false, 0, 0) := by decide

end Sys2Proof.Tests
end

section
/-! PROOF. A command's result depends on its own operands alone (O25), and a required capacity never wraps (O38). -/

namespace Sys2Proof.Certificates

open Sys2Proof.Machine

/-- Two results of the command `i` that its host cannot tell apart: the same response and, after a success, the same
written elements. -/
def SameResult (i : Instr) (t t' : State) : Prop :=
  SameResponse t t' ∧
  (t.resp.ok = true →
    if i.isDecoder then t'.bytes.take t.resp.count.toNat = t.bytes.take t.resp.count.toNat
    else t'.chars.take t.resp.count.toNat = t.chars.take t.resp.count.toNat)

/-- A failure is its cause alone, whatever the width of the registers. -/
theorem sameResult_raise (i : Instr) (c : Cause) (s s' : State) : SameResult i (s.raise c) (s'.raise c) :=
  ⟨⟨rfl, rfl, by simp⟩, fun h => by cases h⟩

/-- A success is its count alone, where the count fits both widths. -/
theorem sameResponse_complete {count : Nat} {s s' : State} (h : count ≤ s.dstCap.toNat) (h' : count ≤ s'.dstCap.toNat) :
    SameResponse (s.complete count) (s'.complete count) :=
  ⟨rfl, rfl, (Resp.success_count_toNat count h').trans (Resp.success_count_toNat count h).symm⟩

theorem afterEncode_chars_take {count : Nat} {text : List Byte → List Char16} {s : State}
    (hl : (text (s.bytes.take s.srcLen.toNat)).length = count) :
    (s.afterEncode count text).chars.take count = text (s.bytes.take s.srcLen.toNat) := by
  subst hl; exact putPrefix_take _ _

theorem afterDecode_bytes_take {req : Nat} {out : List Byte} {s : State} (hl : out.length = req) :
    (s.afterDecode req out).bytes.take req = out := by
  subst hl; exact putPrefix_take _ _

/-- One text, written in full into two destinations, is one result of an encoder. -/
theorem sameResult_afterEncode {i : Instr} {count : Nat} {text : List Byte → List Char16} {s s' : State}
    (hi : i.isDecoder = false) (hl : (text (s.bytes.take s.srcLen.toNat)).length = count)
    (h : count ≤ s.dstCap.toNat) (h' : count ≤ s'.dstCap.toNat)
    (hsrc : s'.bytes.take s'.srcLen.toNat = s.bytes.take s.srcLen.toNat) :
    SameResult i (s.afterEncode count text) (s'.afterEncode count text) := by
  have hcount : (s.afterEncode count text).resp.count.toNat = count := Resp.success_count_toNat count h
  refine ⟨sameResponse_complete h h', fun _ => ?_⟩
  rw [hi, hcount, afterEncode_chars_take hl, afterEncode_chars_take (hsrc ▸ hl), hsrc]
  rfl

/-- The same bytes, written in full into two destinations, are one result of a decoder. -/
theorem sameResult_afterDecode {i : Instr} {req : Nat} {out : List Byte} {s s' : State}
    (hi : i.isDecoder = true) (hl : out.length = req) (h : req ≤ s.dstCap.toNat) (h' : req ≤ s'.dstCap.toNat) :
    SameResult i (s.afterDecode req out) (s'.afterDecode req out) := by
  have hcount : (s.afterDecode req out).resp.count.toNat = req := Resp.success_count_toNat req h
  refine ⟨sameResponse_complete h h', fun _ => ?_⟩
  rw [hi, hcount, afterDecode_bytes_take hl, afterDecode_bytes_take hl]
  rfl

/-- The trim reads no element from its length on (R70). -/
theorem trimLen_take (src : List Char16) {n L : Nat} (h : L ≤ n) : trimLen (src.take n) L = trimLen src L := by
  induction L with
  | zero => rfl
  | succ L ih => simp only [trimLen, List.getElem?_take_of_lt h, ih (Nat.le_of_succ_le h)]

theorem sourceLength_le_srcLen (i : Instr) (s : State) : s.sourceLength i ≤ s.srcLen.toNat := by
  cases i with
  | b64decT _ => exact trimLen_le _ _
  | b16encL | b16encU | b16dec _ | b64enc | b64encP | b64dec _ => exact Nat.le_refl _

section SameCommand

variable {i : Instr} {s s' : State}

theorem SameCommand.srcLen_eq (h : SameCommand i s s') : s'.srcLen.toNat = s.srcLen.toNat := by
  obtain ⟨hn, -⟩ := h
  exact hn

theorem SameCommand.dstCap_eq (h : SameCommand i s s') : s'.dstCap.toNat = s.dstCap.toNat := by
  obtain ⟨-, hcap, -⟩ := h
  exact hcap

theorem SameCommand.encoder (h : SameCommand i s s') (hi : i.isDecoder = false) :
    s'.bytes.take s'.srcLen.toNat = s.bytes.take s.srcLen.toNat ∧ s.srcLen.toNat ≤ s'.bytes.length ∧
    s'.chars.length = s.chars.length := by
  obtain ⟨hn, -, -, hsize, hdst, hsrc⟩ := h
  simp only [State.srcSize, State.dstSize, hi] at hsize hdst hsrc
  exact ⟨hn ▸ hsrc, hsize, hdst⟩

theorem SameCommand.decoder (h : SameCommand i s s') (hi : i.isDecoder = true) :
    s'.chars.take s.srcLen.toNat = s.chars.take s.srcLen.toNat ∧ s.srcLen.toNat ≤ s.chars.length ∧
    s.srcLen.toNat ≤ s'.chars.length ∧ s'.bytes.length = s.bytes.length := by
  obtain ⟨-, -, hsize, hsize', hdst, hsrc⟩ := h
  simp only [State.srcSize, State.dstSize, hi] at hsize hsize' hdst hsrc
  exact ⟨hsrc, hsize, hsize', hdst⟩

theorem SameCommand.trimLen_eq (h : SameCommand i s s') (hi : i.isDecoder = true) :
    trimLen s'.chars s'.srcLen.toNat = trimLen s.chars s.srcLen.toNat := by
  obtain ⟨hsrc, -, -, -⟩ := h.decoder hi
  rw [h.srcLen_eq, ← trimLen_take s'.chars (Nat.le_refl _), hsrc, trimLen_take _ (Nat.le_refl _)]

theorem SameCommand.sourceLength_eq (h : SameCommand i s s') : s'.sourceLength i = s.sourceLength i := by
  cases i with
  | b64decT _ => exact h.trimLen_eq rfl
  | b16encL | b16encU | b16dec _ | b64enc | b64encP | b64dec _ => exact h.srcLen_eq

theorem SameCommand.required_eq (h : SameCommand i s s') : s'.required i = s.required i := by
  cases i with
  | b64decT _ => exact congrArg reqB64dec (h.trimLen_eq rfl)
  | b16encL | b16encU => exact congrArg reqB16enc h.srcLen_eq
  | b16dec _ => exact congrArg reqB16dec h.srcLen_eq
  | b64enc | b64encP => exact congrArg reqB64enc h.srcLen_eq
  | b64dec _ => exact congrArg reqB64dec h.srcLen_eq

/-- The text a decoder works on is part of its operands. -/
theorem SameCommand.text_eq (h : SameCommand i s s') (hi : i.isDecoder = true) :
    s'.chars.take (s'.sourceLength i) = s.chars.take (s.sourceLength i) := by
  obtain ⟨hsrc, -, -, -⟩ := h.decoder hi
  have htake := congrArg (List.take (s.sourceLength i)) hsrc
  rw [h.sourceLength_eq]
  rwa [List.take_take, List.take_take, Nat.min_eq_left (sourceLength_le_srcLen i s)] at htake

theorem SameCommand.encoder_result (h : SameCommand i s s') (hi : i.isDecoder = false) {t : State}
    (he : exec i s = .next t) : ∃ t', exec i s' = .next t' ∧ SameResult i t t' := by
  obtain ⟨htake, hsize', hdst⟩ := h.encoder hi
  have hn := h.srcLen_eq
  have hcap := h.dstCap_eq
  rw [exec_encoder hi] at he ⊢
  rw [h.required_eq, hn]
  rcases encodeCommand_next he with ⟨hshort, rfl⟩ | ⟨hfits, hsize, hroom, rfl⟩
  · exact ⟨_, encodeCommand_capacity (by omega), sameResult_raise i .capacity s s'⟩
  · have hle := count_le_required hi s
    have hl : (textOf i (s.bytes.take s.srcLen.toNat)).length = countOf i s.srcLen.toNat := by
      rw [text_length hi, List.length_take, Nat.min_eq_left hsize]
    exact ⟨_, encodeCommand_ok (by omega) (by omega) (by omega),
      sameResult_afterEncode hi hl (by omega) (by omega) htake⟩

/-- A decoder's pass over one and the same text into destinations of one size has one result. -/
theorem SameCommand.pass_result (h : SameCommand i s s') (hi : i.isDecoder = true) {t : State}
    (he : decodePass (s.sourceLength i) (s.required i) (valueOf i) s = .next t) :
    ∃ t', decodePass (s'.sourceLength i) (s'.required i) (valueOf i) s' = .next t' ∧ SameResult i t t' := by
  obtain ⟨-, -, hsize', hdst⟩ := h.decoder hi
  have hcap := h.dstCap_eq
  have hL := h.sourceLength_eq
  have hR := h.required_eq
  have hle := sourceLength_le_srcLen i s
  have htext := h.text_eq hi
  rcases decodePass_next he with ⟨hshort, rfl⟩ | ⟨hfits, hsize, hroom, ⟨out, hv, rfl⟩ | ⟨hv, rfl⟩⟩
  · exact ⟨_, decodePass_capacity (by omega), sameResult_raise i .capacity s s'⟩
  · refine ⟨_, decodePass_ok (by omega) (by omega) (by omega) (htext ▸ hv), ?_⟩
    rw [hR]
    exact sameResult_afterDecode hi (value_length hsize hv) hfits (by omega)
  · exact ⟨_, decodePass_format (by omega) (by omega) (by omega) (htext ▸ hv), sameResult_raise i .format _ _⟩

theorem SameCommand.decoder_result (h : SameCommand i s s') (hi : i.isDecoder = true) {t : State}
    (he : exec i s = .next t) : ∃ t', exec i s' = .next t' ∧ SameResult i t t' := by
  obtain ⟨-, hsize, hsize', -⟩ := h.decoder hi
  have hn := h.srcLen_eq
  cases hnull : i.null
  · by_cases hodd : i = .b16dec false ∧ s.srcLen.toNat % 2 = 1
    · obtain ⟨rfl, hodd⟩ := hodd
      obtain rfl : s.raise .format = t := Host.Outcome.next.inj ((execB16dec_odd hodd).symm.trans he)
      exact ⟨_, execB16dec_odd (by omega), sameResult_raise _ .format s s'⟩
    · have heven : i = .b16dec false → s.srcLen.toNat % 2 = 0 := fun e =>
        (Nat.mod_two_eq_zero_or_one _).resolve_right fun o => hodd ⟨e, o⟩
      rw [exec_decoder hi hnull heven fun _ => hsize] at he
      rw [exec_decoder hi hnull (fun e => hn ▸ heven e) fun _ => hn ▸ hsize']
      exact h.pass_result hi he
  · rw [exec_null hnull] at he ⊢
    cases he
    exact ⟨_, rfl, sameResult_raise i .nullInput s s'⟩

end SameCommand

/-- Settles O25: encoders and decoders apart, each by what its command can answer on the first state. -/
theorem commandReadsOnlyItsOperands : Obligations.CommandReadsOnlyItsOperands := by
  intro i s s' t h he
  rcases Bool.eq_false_or_eq_true i.isDecoder with hi | hi
  · exact h.decoder_result hi he
  · exact h.encoder_result hi he

/-- `DST_CAP` is a register of `LEN_BITS` bits, so a `REQ` of 2^LEN_BITS or more is above it (R7). -/
theorem encodeCommand_required_unwrapped {req count : Nat} {text : List Byte → List Char16} {s : State}
    (h : 2 ^ s.lenBits ≤ req) : encodeCommand req count text s = .next (failed 3 s) :=
  encodeCommand_capacity (Nat.lt_of_lt_of_le s.dstCap.isLt h)

/-- Settles O38: `REQ` is a natural number, and both encoders of a pair compare it with the register unwrapped. -/
theorem requiredCapacityNeverWraps : Obligations.RequiredCapacityNeverWraps := by
  constructor
  · intro u s h
    cases u <;> exact encodeCommand_required_unwrapped h
  · intro p s h
    cases p <;> exact encodeCommand_required_unwrapped h

end Sys2Proof.Certificates
end

section
/-! PROOF. What a command leaves alone and what it answers (O26, O24), the invariant at reset and across a step (O29, O28),
the step of an issued command (O1), and the values the model fixes: the response after reset (O6) and the tables (O8, O9). -/

namespace Sys2Proof.Certificates

open Sys2Proof.Machine Sys2Proof.Safety

/-! ### The frame of a command -/

/-- The command `i` is over and has left its operands and its source as they were. -/
def EndsWithOperandsKept (i : Instr) (s t : State) : Prop :=
  SameOperands s t ∧ t.busy = false ∧ (i.isDecoder = true → t.chars = s.chars) ∧ (i.isDecoder = false → t.bytes = s.bytes)

/-- The frame of the command port is kept by every response. -/
theorem sameOperands_respond (s : State) (r : Resp s.lenBits) : SameOperands s (s.respond r) :=
  ⟨rfl, rfl, rfl, rfl, rfl⟩

theorem endsWithOperandsKept_raise (i : Instr) (c : Cause) (s : State) : EndsWithOperandsKept i s (s.raise c) :=
  ⟨sameOperands_respond s _, rfl, fun _ => rfl, fun _ => rfl⟩

theorem endsWithOperandsKept_afterEncode {i : Instr} (hi : i.isDecoder = false) (count : Nat)
    (text : List Byte → List Char16) (s : State) : EndsWithOperandsKept i s (s.afterEncode count text) :=
  ⟨sameOperands_respond (s.writeChars _) _, rfl, fun hd => by simp [hi] at hd, fun _ => rfl⟩

theorem endsWithOperandsKept_afterDecode {i : Instr} (hi : i.isDecoder = true) (req : Nat) (out : List Byte) (s : State) :
    EndsWithOperandsKept i s (s.afterDecode req out) :=
  ⟨sameOperands_respond (s.writeBytes out) _, rfl, fun _ => rfl, fun he => by simp [hi] at he⟩

theorem endsWithOperandsKept_afterSpoil {i : Instr} (hi : i.isDecoder = true) (req : Nat) (s : State) :
    EndsWithOperandsKept i s (s.afterSpoil req) :=
  ⟨sameOperands_respond (s.spoilBytes req) _, rfl, fun _ => rfl, fun he => by simp [hi] at he⟩

/-- Settles O26: each of the four states a command can end in keeps what the command was given. -/
theorem noCommandWritesItsOperands : Obligations.NoCommandWritesItsOperands := by
  intro i s t h
  rcases exec_next h with ⟨-, rfl⟩ | ⟨-, -, rfl⟩ | ⟨-, -, rfl⟩ | ⟨hi, -, -, -, rfl⟩ |
    ⟨hi, -, -, -, -, -, -, ⟨out, -, rfl⟩ | ⟨-, rfl⟩⟩
  · exact endsWithOperandsKept_raise i .nullInput s
  · exact endsWithOperandsKept_raise i .format s
  · exact endsWithOperandsKept_raise i .capacity s
  · exact endsWithOperandsKept_afterEncode hi _ _ s
  · exact endsWithOperandsKept_afterDecode hi _ out s
  · exact endsWithOperandsKept_afterSpoil hi _ s

/-! ### The answer of a command -/

theorem charsKeptFrom_writeChars {out : List Char16} {s : State} (h : out.length ≤ s.chars.length) :
    CharsKeptFrom out.length s (s.writeChars out) :=
  ⟨putPrefix_length _ _ h, fun _ hj => putPrefix_above _ _ hj⟩

theorem bytesKeptFrom_writeBytes {out : List Byte} {s : State} (h : out.length ≤ s.bytes.length) :
    BytesKeptFrom out.length s (s.writeBytes out) :=
  ⟨putPrefix_length _ _ h, fun _ hj => putPrefix_above _ _ hj⟩

/-- The command `i` has succeeded with a count within its capacity, and its destination is as before from the count on
(R76, R21, R29). -/
structure Succeeds (i : Instr) (s t : State) : Prop where
  ok : t.resp.ok = true
  cause : t.resp.cause = 0
  count_le : t.resp.count.toNat ≤ s.dstCap.toNat
  bytes_kept : i.isDecoder = true → BytesKeptFrom t.resp.count.toNat s t
  chars_kept : i.isDecoder = false → CharsKeptFrom t.resp.count.toNat s t

theorem succeeds_afterEncode {i : Instr} {count : Nat} {text : List Byte → List Char16} {s : State}
    (hi : i.isDecoder = false) (hl : (text (s.bytes.take s.srcLen.toNat)).length = count)
    (hfits : count ≤ s.dstCap.toNat) (hroom : count ≤ s.chars.length) : Succeeds i s (s.afterEncode count text) := by
  have hcount : (s.afterEncode count text).resp.count.toNat = count := Resp.success_count_toNat count hfits
  refine ⟨rfl, rfl, hcount.le.trans hfits, fun hd => by simp [hi] at hd, fun _ => ?_⟩
  rw [hcount, ← hl]
  exact charsKeptFrom_writeChars (hl.le.trans hroom)

theorem succeeds_afterDecode {i : Instr} {req : Nat} {out : List Byte} {s : State} (hi : i.isDecoder = true)
    (hl : out.length = req) (hfits : req ≤ s.dstCap.toNat) (hroom : req ≤ s.bytes.length) :
    Succeeds i s (s.afterDecode req out) := by
  have hcount : (s.afterDecode req out).resp.count.toNat = req := Resp.success_count_toNat req hfits
  refine ⟨rfl, rfl, hcount.le.trans hfits, fun _ => ?_, fun he => by simp [hi] at he⟩
  rw [hcount, ← hl]
  exact bytesKeptFrom_writeBytes (hl.le.trans hroom)

/-- An encoder whose source is there writes as many characters as it reports. -/
theorem textOf_source_length {i : Instr} {s : State} (hi : i.isDecoder = false) (hsize : s.srcLen.toNat ≤ s.bytes.length) :
    (textOf i (s.bytes.take s.srcLen.toNat)).length = countOf i s.srcLen.toNat := by
  rw [text_length hi, List.length_take, Nat.min_eq_left hsize]

/-- Every command that goes on fails with a cause or succeeds within its capacity. -/
theorem exec_fails_or_succeeds {i : Instr} {s t : State} (h : exec i s = .next t) :
    (∃ c, c ≠ .none ∧ t.resp = Resp.failure c) ∨ Succeeds i s t := by
  rcases exec_next h with ⟨-, rfl⟩ | ⟨-, -, rfl⟩ | ⟨-, -, rfl⟩ | ⟨hi, hfits, hsize, hroom, rfl⟩ |
    ⟨hi, -, -, -, hfits, htext, hroom, ⟨out, hv, rfl⟩ | ⟨-, rfl⟩⟩
  · exact .inl ⟨.nullInput, by decide, rfl⟩
  · exact .inl ⟨.format, by decide, rfl⟩
  · exact .inl ⟨.capacity, by decide, rfl⟩
  · have hle := count_le_required hi s
    exact .inr (succeeds_afterEncode hi (textOf_source_length hi hsize) (hle.trans hfits) (hle.trans hroom))
  · exact .inr (succeeds_afterDecode hi (value_length htext hv) hfits hroom)
  · exact .inl ⟨.format, by decide, rfl⟩

/-- Settles O24: a failure has no count, and a success keeps its source by the frame and its destination by the count. -/
theorem countBoundsWhatIsWritten : Obligations.CountBoundsWhatIsWritten := by
  intro i s t h
  obtain ⟨-, -, hchars, hbytes⟩ := noCommandWritesItsOperands i s t h
  rcases exec_fails_or_succeeds h with ⟨c, -, hr⟩ | ht
  · exact ⟨fun _ => by rw [hr, Resp.failure_count], fun hok => by simp [hr] at hok⟩
  · refine ⟨fun hok => by simp [ht.ok] at hok, fun _ => ⟨ht.count_le, fun hd => ?_, fun he => ?_⟩⟩
    · exact ⟨hchars hd, ht.bytes_kept hd⟩
    · exact ⟨hbytes he, ht.chars_kept he⟩

/-! ### The invariant -/

theorem respLegal_atReset {lenBits : Nat} : RespLegal (Resp.atReset : Resp lenBits) := .inl ⟨rfl, rfl, rfl⟩

theorem respLegal_failure {lenBits : Nat} {c : Cause} (hc : c ≠ .none) : RespLegal (Resp.failure c : Resp lenBits) := by
  refine .inr (.inr ⟨rfl, rfl, ?_⟩)
  cases c with
  | none => exact absurd rfl hc
  | nullInput => exact .inl rfl
  | format => exact .inr (.inl rfl)
  | capacity => exact .inr (.inr (.inl rfl))
  | illegal => exact .inr (.inr (.inr rfl))

theorem respLegal_of_exec {i : Instr} {s t : State} (h : exec i s = .next t) : RespLegal t.resp := by
  rcases exec_fails_or_succeeds h with ⟨c, hc, hr⟩ | ht
  · rw [hr]; exact respLegal_failure hc
  · exact .inr (.inl ⟨ht.ok, ht.cause⟩)

/-- With no command in progress the invariant asks for a legal response only. -/
theorem inv_of_not_busy {s : State} (hr : RespLegal s.resp) (hb : s.busy = false) : Inv s :=
  ⟨hr, fun hbusy => by simp [hb] at hbusy⟩

/-- Settles O28: a step waits or leaves a block without a command in progress, whose response is legal. -/
theorem stepKeepsTheInvariant : Obligations.StepKeepsTheInvariant := by
  intro s t hinv h
  rcases step_next h with ⟨-, rfl⟩ | ⟨-, -, rfl⟩ | ⟨-, -, e, -, rfl⟩ | ⟨-, -, i, -, hi⟩
  · exact inv_of_not_busy respLegal_atReset rfl
  · exact hinv
  · exact inv_of_not_busy (respLegal_failure (by decide)) rfl
  · obtain ⟨-, hbusy, -⟩ := noCommandWritesItsOperands i s t hi
    exact inv_of_not_busy (respLegal_of_exec hi) hbusy

theorem inv_resetAt (lenBits : Nat) : Inv (State.resetAt lenBits) := inv_of_not_busy respLegal_atReset rfl

/-- Settles O29: after reset no command is in progress. -/
theorem resetMeetsTheInvariant : Obligations.ResetMeetsTheInvariant :=
  ⟨inv_resetAt, inv_resetAt Config.lenBits⟩

/-! ### The step of an issued command and the state after reset -/

/-- Settles O1, by the case of the step in which a legal word is in progress. -/
theorem stepRunsTheDecodedCommand : Obligations.StepRunsTheDecodedCommand :=
  fun _ _ hr hb hd => step_of_legal hr hb hd

/-- Settles O6: the three registers are those of `Resp.atReset`, and 32 is the default of `LEN_BITS`. -/
theorem resetStateHasNoResponse : Obligations.ResetStateHasNoResponse :=
  ⟨fun _ => ⟨rfl, rfl, rfl⟩, rfl⟩

/-! ### The tables -/

/-- Settles O8, alphabet by alphabet over the finitely many places of each. -/
theorem alphabetsHoldTheirCodes : Obligations.AlphabetsHoldTheirCodes := by
  refine ⟨ENC16L_length, ENC16U_length, ENC64_length, rfl, ?digits16, ?letters16, ?letters64, ?digits64, rfl, rfl, ?pad⟩
  case digits16 => decide
  case letters16 => decide
  case letters64 => decide
  case digits64 => decide
  case pad => decide

/-- `DEC16` at the code of an alphabet's character `k` is `k` (R13). -/
theorem dec16_hex (u : Bool) (k : BitVec 4) : dec16 ((hex u k).setWidth 8) = k.setWidth 8 := by revert u k; decide

/-- A valid entry of `DEC16` is the place of its index in one of the two alphabets (R13). -/
theorem hex_dec16 : ∀ c : Byte, (dec16 c).msb = false → ∃ u, hex u ((dec16 c).setWidth 4) = c.setWidth 16 := by decide

/-- `DEC64` at the code of the alphabet's character `k` is `k` (R14). -/
theorem dec64_enc64 (k : BitVec 6) : dec64 ((enc64 k).setWidth 8) = k.setWidth 8 := by revert k; decide

/-- A valid entry of `DEC64` is the place of its index in the alphabet (R14). -/
theorem enc64_dec64 : ∀ c : Byte, (dec64 c).msb = false → enc64 ((dec64 c).setWidth 6) = c.setWidth 16 := by decide

/-- A number of fewer than 8 bits is no sentinel (R15). -/
theorem msb_setWidth_of_lt {n : Nat} (hn : n < 8) (k : BitVec n) : (k.setWidth 8).msb = false := by
  rw [BitVec.msb_setWidth]
  exact BitVec.getLsbD_of_ge k 7 (by omega)

/-- Widening loses nothing. -/
theorem setWidth_setWidth_same {n m : Nat} (hn : n ≤ m) (k : BitVec n) : (k.setWidth m).setWidth n = k := by
  rw [BitVec.setWidth_setWidth_of_le _ hn, BitVec.setWidth_eq]

theorem dec16_eq_iff (c : Byte) (k : BitVec 4) : dec16 c = k.setWidth 8 ↔ ∃ u, hex u k = c.setWidth 16 := by
  constructor
  · intro h
    have hc := hex_dec16 c (h ▸ msb_setWidth_of_lt (by decide) k)
    rwa [h, setWidth_setWidth_same (by decide)] at hc
  · rintro ⟨u, h⟩
    have hk := dec16_hex u k
    rwa [h, setWidth_setWidth_same (by decide) c] at hk

theorem dec64_eq_iff (c : Byte) (k : BitVec 6) : dec64 c = k.setWidth 8 ↔ enc64 k = c.setWidth 16 := by
  constructor
  · intro h
    have hc := enc64_dec64 c (h ▸ msb_setWidth_of_lt (by decide) k)
    rwa [h, setWidth_setWidth_same (by decide)] at hc
  · intro h
    have hk := dec64_enc64 k
    rwa [h, setWidth_setWidth_same (by decide) c] at hk

/-- Counting the indices in two parts keeps each closed count short. -/
theorem countP_range_add (p : Nat → Bool) (m n : Nat) :
    (List.range (m + n)).countP p = (List.range m).countP p + (List.range n).countP (p ∘ (m + ·)) := by
  rw [List.range_add, List.countP_append, List.countP_map]

/-- Settles O9: each map by its inverse alphabet, and the sentinels and the numbers of valid entries by the 256 indices. -/
theorem decodingMapsInvertTheAlphabets : Obligations.DecodingMapsInvertTheAlphabets := by
  refine ⟨?hex, ?sentinel16, dec64_eq_iff, ?sentinel64, ?valid16, ?valid64⟩
  case hex => intro c k; rw [dec16_eq_iff, Bool.exists_bool]; rfl
  case sentinel16 => decide
  case sentinel64 => decide
  case valid16 => rw [countP_range_add _ 128 128]; rfl
  case valid64 => rw [countP_range_add _ 128 128]; rfl

end Sys2Proof.Certificates
end

section
/-! PROOF. The command word: a word selects an instruction exactly when it is that instruction's word, which is a row of
the table (O4, O5). -/

namespace Sys2Proof.Certificates

/-! ### The fields of a word -/

/-- The code of a unit in `OP` (R41). -/
def opOfUnit : FuncUnit → BitVec 2
  | .base16Encoder => 0
  | .base16Decoder => 1
  | .base64urlEncoder => 2
  | .base64urlDecoder => 3

theorem opOfUnit_unitOfOp (op : BitVec 2) : opOfUnit (unitOfOp op) = op := by revert op; decide

/-- A word with its reserved bits 0 has no other bits than its three fields (R40). -/
theorem cmdWord_fields {w : BitVec 8} (h : cmdReserved w = 0) : cmdWord (cmdOp w) (cmdFlag w) (cmdNull w) = w := by
  revert w; decide

/-- Such a word is given by its unit in place of its `OP`, which is what the decoder looks at. -/
theorem cmdWord_unit {w : BitVec 8} (h : cmdReserved w = 0) :
    cmdWord (opOfUnit (unitOfOp (cmdOp w))) (cmdFlag w) (cmdNull w) = w := by
  rw [opOfUnit_unitOfOp, cmdWord_fields h]

/-! ### Decoder and encoder -/

theorem decode_encode (i : Instr) : decode (encode i) = .ok i := by
  cases i with
  | b16encL | b16encU | b64enc | b64encP => rfl
  | b16dec null | b64dec null | b64decT null => cases null <;> rfl

/-- Unit by unit: an encoder wants `NULL` 0 (R43), `B16DEC` wants `FLAG` 0 (R42), and every other field is in the instruction. -/
theorem encode_of_decode {w : BitVec 8} {i : Instr} (h : decode w = .ok i) : encode i = w := by
  unfold decode at h
  split at h
  · cases h
  · next hres =>
    rw [← cmdWord_unit (not_not.mp hres)]
    generalize unitOfOp (cmdOp w) = unit, cmdFlag w = flag, cmdNull w = null at h ⊢
    cases unit with
    | base16Encoder | base64urlEncoder => cases null <;> cases flag <;> cases h <;> rfl
    | base16Decoder | base64urlDecoder => cases flag <;> cases h <;> rfl

theorem decode_eq_ok_iff (w : BitVec 8) (i : Instr) : decode w = .ok i ↔ encode i = w :=
  ⟨encode_of_decode, fun h => h ▸ decode_encode i⟩

/-- The table of R46 is the graph of the encoder. -/
theorem mem_legalWords_iff (w : BitVec 8) (i : Instr) : (w, i) ∈ legalWords ↔ encode i = w := by
  constructor
  · have hrows : ∀ row ∈ legalWords, encode row.2 = row.1 := by decide
    exact hrows (w, i)
  · rintro rfl
    cases i with
    | b16encL | b16encU | b64enc | b64encP => decide
    | b16dec null | b64dec null | b64decT null => cases null <;> decide

/-- Settles O4: to decode to an instruction and to stand beside it in the table are both to be its word. -/
theorem exactlyTenWordsAreLegal : Obligations.ExactlyTenWordsAreLegal :=
  fun w i => (decode_eq_ok_iff w i).trans (mem_legalWords_iff w i).symm

/-- Settles O5, by the two directions of `decode_eq_ok_iff`. -/
theorem decodeInvertsEncode : Obligations.DecodeInvertsEncode :=
  fun i _ => ⟨decode_encode i, encode_of_decode⟩

end Sys2Proof.Certificates
end

section
/-! PROOF. The base16 encoders: the character of a nibble (O10), the text an encoder writes (O16), and that it is in the
chosen alphabet and reads back (O33). -/

namespace Sys2Proof.Certificates

open Sys2Proof.Machine

/-! ### The character of a nibble -/

/-- `HEX` is the table look-up of R52. -/
theorem alphabet_getElem?_nibble (u : Bool) (k : BitVec 4) :
    (if u then ENC16U else ENC16L)[k.toNat]? = some (hex u k) := by
  cases u
  · exact List.getElem?_eq_getElem _
  · exact List.getElem?_eq_getElem _

/-- The arithmetic strategy of R53. -/
theorem hex_eq_digit_or_letterBase (u : Bool) (k : BitVec 4) :
    hex u k = if k.toNat < 10 then BitVec.ofNat 16 (0x30 + k.toNat)
      else BitVec.ofNat 16 ((if u then 0x37 else 0x57) + k.toNat) := by
  revert u k; decide

/-- Settles O10: the look-up is the definition of `HEX`, and the arithmetic is checked at each of the 16 nibbles. -/
theorem hexIsDigitOrLetterBase : Obligations.HexIsDigitOrLetterBase :=
  fun u k => ⟨(alphabet_getElem?_nibble u k).symm, hex_eq_digit_or_letterBase u k⟩

theorem hex_mem_alphabet (u : Bool) (k : BitVec 4) : hex u k ∈ if u then ENC16U else ENC16L :=
  List.mem_of_getElem? (alphabet_getElem?_nibble u k)

/-- The high byte is tested before the map (R57). -/
theorem high_eq_zero_of_nib {c : Char16} {v : Nat} (h : nib c = some v) : c.high = 0 := by
  obtain ⟨hhigh, -⟩ := Option.ite_none_left_eq_some.1 h
  exact not_not.1 hhigh

/-! ### The text of a byte sequence -/

theorem highNibble_toNat (b : Byte) : (b.extractLsb' 4 4).toNat = b.toNat / 16 := by
  have := b.isLt
  rw [BitVec.extractLsb'_toNat, Nat.shiftRight_eq_div_pow]
  omega

theorem lowNibble_toNat (b : Byte) : (b.extractLsb' 0 4).toNat = b.toNat % 16 := by
  rw [BitVec.extractLsb'_toNat, Nat.shiftRight_zero]

/-- Byte `i` becomes characters `2i` and `2i + 1`, high nibble first (R54). -/
theorem hexText_getElem?_pair (u : Bool) {bs : List Byte} {i : Nat} {b : Byte} (h : bs[i]? = some b) :
    (hexText u bs)[2 * i]? = some (hex u (b.extractLsb' 4 4)) ∧
    (hexText u bs)[2 * i + 1]? = some (hex u (b.extractLsb' 0 4)) := by
  induction bs generalizing i with
  | nil => simp at h
  | cons b' bs ih =>
    cases i with
    | zero => cases h; exact ⟨rfl, rfl⟩
    | succ i => exact ih h

theorem hexText_getElem?_alphabet (u : Bool) {bs : List Byte} {i : Nat} {b : Byte} (h : bs[i]? = some b) :
    (hexText u bs)[2 * i]? = (if u then ENC16U else ENC16L)[b.toNat / 16]? ∧
    (hexText u bs)[2 * i + 1]? = (if u then ENC16U else ENC16L)[b.toNat % 16]? := by
  rw [← highNibble_toNat, ← lowNibble_toNat, alphabet_getElem?_nibble, alphabet_getElem?_nibble]
  exact hexText_getElem?_pair u h

/-- Every character of a text is that of a nibble. -/
theorem eq_hex_of_mem_hexText {u : Bool} {bs : List Byte} {c : Char16} (h : c ∈ hexText u bs) : ∃ k, c = hex u k := by
  induction bs with
  | nil => simp [hexText] at h
  | cons b bs ih =>
    rcases List.mem_append.1 h with hpair | hrest
    · rcases List.mem_pair.1 hpair with rfl | rfl <;> exact ⟨_, rfl⟩
    · exact ih hrest

/-! ### The state after an encoder that succeeds -/

section AfterEncode

variable {count : Nat} {text : List Byte → List Char16} {s : State}

theorem ends_afterEncode (hfits : count ≤ s.dstCap.toNat) : Ends true 0 count s (s.afterEncode count text) :=
  ⟨rfl, rfl, Resp.success_count_toNat count hfits, rfl, sameOperands_respond (s.writeChars _) _⟩

theorem charsKeptFrom_afterEncode (hl : (text (s.bytes.take s.srcLen.toNat)).length = count)
    (hroom : count ≤ s.chars.length) : CharsKeptFrom count s (s.afterEncode count text) := by
  subst hl; exact charsKeptFrom_writeChars hroom

theorem afterEncode_chars_getElem? (hl : (text (s.bytes.take s.srcLen.toNat)).length = count) {j : Nat}
    (hj : j < count) : (s.afterEncode count text).chars[j]? = (text (s.bytes.take s.srcLen.toNat))[j]? := by
  rw [← afterEncode_chars_take hl, List.getElem?_take_of_lt hj]

end AfterEncode

/-! ### The two commands -/

/-- Both cases are one command, but for the alphabet (R54, R55). -/
theorem exec_b16encInstr (u : Bool) (s : State) :
    exec (b16encInstr u) s = encodeCommand (2 * s.srcLen.toNat) (2 * s.srcLen.toNat) (hexText u) s := by
  cases u <;> rfl

theorem hexText_source_length (u : Bool) {s : State} (hsize : s.srcLen.toNat ≤ s.bytes.length) :
    (hexText u (s.bytes.take s.srcLen.toNat)).length = 2 * s.srcLen.toNat := by
  rw [hexText_length, List.length_take, Nat.min_eq_left hsize, reqB16enc]

/-- Settles O16: the capacity check, then the state after the encoding, whose text is read pair by pair. -/
theorem b16encWritesHexPairs : Obligations.B16encWritesHexPairs := by
  intro u s
  rw [exec_b16encInstr]
  refine ⟨by cases u <;> rfl, encodeCommand_capacity, fun hcap hsize hroom => ?_⟩
  have hl := hexText_source_length u hsize
  refine ⟨_, encodeCommand_ok hcap hsize (hcap.trans hroom), ends_afterEncode hcap, rfl,
    charsKeptFrom_afterEncode hl (hcap.trans hroom), fun i b hi hb => ?_⟩
  rw [afterEncode_chars_getElem? hl (by omega), afterEncode_chars_getElem? hl (by omega)]
  exact hexText_getElem?_alphabet u ((List.getElem?_take_of_lt hi).trans hb)

/-- Settles O33: below the count stands the text, and each of its characters is that of a nibble. -/
theorem b16encOutputIsInTheAlphabet : Obligations.B16encOutputIsInTheAlphabet := by
  intro u s t h hok j c hj hc
  rw [exec_b16encInstr] at h
  rcases encodeCommand_next h with ⟨-, rfl⟩ | ⟨hcap, hsize, -, rfl⟩
  · cases hok
  · obtain ⟨-, -, hcount, -⟩ := ends_afterEncode (text := hexText u) hcap
    rw [afterEncode_chars_getElem? (hexText_source_length u hsize) (hcount ▸ hj)] at hc
    obtain ⟨k, rfl⟩ := eq_hex_of_mem_hexText (List.mem_of_getElem? hc)
    have hk := nib_hex u k
    exact ⟨hex_mem_alphabet u k, high_eq_zero_of_nib hk, by rw [hk]; rfl⟩

end Sys2Proof.Certificates
end

section
/-! PROOF. The base16 decoder: the characters with a nibble (O11), what a text decodes to and the checks of `B16DEC` (O18),
the case of its letters (O34), and the round trip with the base16 encoders (O35). -/

namespace Sys2Proof.Certificates

open Sys2Proof.Machine

/-! ### Nibbles and pairs -/

/-- A character with a zero high byte is its low byte (R31). -/
theorem low_setWidth_of_high_eq_zero {c : Char16} (h : c.high = 0) : c.low.setWidth 16 = c := by
  have hlt := c.isLt
  have h := congrArg BitVec.toNat h
  apply BitVec.eq_of_toNat_eq
  simp only [Char16.high, Char16.low, BitVec.extractLsb'_toNat, BitVec.toNat_setWidth, Nat.shiftRight_eq_div_pow,
    BitVec.ofNat_eq_ofNat, BitVec.toNat_ofNat] at h ⊢
  omega

/-- A character has a nibble exactly when it stands at that place of one of the two alphabets (R13, R57). -/
theorem nib_eq_some_iff (c : Char16) (v : Nat) : nib c = some v ↔ ∃ u k, hex u k = c ∧ k.toNat = v := by
  constructor
  · intro h
    have hhigh := high_eq_zero_of_nib h
    simp only [nib, entryValue, Option.ite_none_left_eq_some, Option.some.injEq, Bool.not_eq_true] at h
    obtain ⟨-, hvalid, rfl⟩ := h
    obtain ⟨u, hu⟩ := hex_dec16 c.low hvalid
    exact ⟨u, _, hu.trans (low_setWidth_of_high_eq_zero hhigh), Nat.mod_eq_of_lt (dec16_valid _ hvalid)⟩
  · rintro ⟨u, k, rfl, rfl⟩
    exact nib_hex u k

/-- The code of a nibble's character (R53). -/
theorem hex_toNat (u : Bool) (k : BitVec 4) :
    (hex u k).toNat = if k.toNat < 10 then 0x30 + k.toNat else (if u then 0x37 else 0x57) + k.toNat := by
  revert u k; decide

/-- A nibble is a digit below 10, and from there on a letter in either case. -/
theorem exists_hex_toNat_iff (n v : Nat) :
    (∃ (u : Bool) (k : BitVec 4), (hex u k).toNat = n ∧ k.toNat = v) ↔
      (n = 0x30 + v ∧ v < 10) ∨ (10 ≤ v ∧ v < 16 ∧ (n = 0x41 + (v - 10) ∨ n = 0x61 + (v - 10))) := by
  simp only [hex_toNat]
  constructor
  · rintro ⟨u, k, rfl, rfl⟩
    have := k.isLt
    split_ifs <;> omega
  · intro h
    have hk : (BitVec.ofNat 4 v).toNat = v := by rw [BitVec.toNat_ofNat]; omega
    rcases h with ⟨rfl, hv⟩ | ⟨hv, -, rfl | rfl⟩
    · exact ⟨false, BitVec.ofNat 4 v, by rw [hk, if_pos hv], hk⟩
    · exact ⟨true, BitVec.ofNat 4 v, by rw [hk, if_neg (by omega), if_pos rfl]; omega, hk⟩
    · exact ⟨false, BitVec.ofNat 4 v, by rw [hk, if_neg (by omega), if_neg (by decide)]; omega, hk⟩

/-- `PAIR` is arithmetic on its nibbles (R57). -/
theorem pairByte_eq_ofNat (hi : Nat) {lo : Nat} (h : lo < 16) : pairByte hi lo = BitVec.ofNat 8 (hi * 16 + lo) := by
  rw [pairByte, trunc8, ← Nat.shiftLeft_add_eq_or_of_lt (i := 4) h, Nat.shiftLeft_eq]

/-- Settles O11: the nibbles are the places in the two alphabets, and the shift and the or of `PAIR` do not overlap. -/
theorem nibbleOfExactlyTheHexCharacters : Obligations.NibbleOfExactlyTheHexCharacters := by
  constructor
  · intro c v
    simp only [nib_eq_some_iff, ← BitVec.toNat_inj, exists_hex_toNat_iff]
  · intro hi lo hhi hlo
    rw [pairByte_eq_ofNat hi hlo, BitVec.toNat_ofNat]
    omega

/-! ### The value of a text -/

/-- The bytes of `n` pairs of nibbles. -/
def pairBytes (v : Nat → Nat) (n : Nat) : List Byte := (List.range n).map fun k => pairByte (v (2 * k)) (v (2 * k + 1))

theorem pairBytes_length (v : Nat → Nat) (n : Nat) : (pairBytes v n).length = n := by
  rw [pairBytes, List.length_map, List.length_range]

theorem pairBytes_getElem? (v : Nat → Nat) {n k : Nat} (h : k < n) :
    (pairBytes v n)[k]? = some (pairByte (v (2 * k)) (v (2 * k + 1))) := by
  rw [pairBytes, List.getElem?_map, List.getElem?_range h]
  rfl

theorem pairBytes_succ (v : Nat → Nat) (n : Nat) :
    pairBytes v (n + 1) = pairByte (v 0) (v 1) :: pairBytes (fun i => v (i + 2)) n := by
  rw [pairBytes, List.range_succ_eq_map, List.map_cons, List.map_map]
  rfl

/-- A text whose characters have the nibbles `v` decodes to their pairs (R58). -/
theorem hexValue_of_nibbles {cs : List Char16} {v : Nat → Nat} {n : Nat} (hl : cs.length = 2 * n)
    (hv : ∀ i < 2 * n, cs[i]?.bind nib = some (v i)) : hexValue cs = some (pairBytes v n) := by
  induction n generalizing cs v with
  | zero => rw [List.eq_nil_of_length_eq_zero hl]; rfl
  | succ n ih =>
    match cs, hl with
    | c0 :: c1 :: rest, hl =>
      have hrest : hexValue rest = some (pairBytes (fun i => v (i + 2)) n) :=
        ih (by simp only [List.length_cons] at hl; omega) fun i hi => hv (i + 2) (by omega)
      exact hexValue_cons.2 ⟨v 0, v 1, _, hv 0 (by omega), hv 1 (by omega), hrest, pairBytes_succ v n⟩

/-- One character without a nibble spoils the text. -/
theorem hexValue_eq_none_of_mem {cs : List Char16} {c : Char16} (hc : c ∈ cs) (hnib : nib c = none) : hexValue cs = none := by
  rw [← Option.not_isSome_iff_eq_none, hexValue_isSome]
  rintro ⟨-, hall⟩
  simpa [hnib] using hall c hc

/-- The two nibbles of a byte make the byte. -/
theorem pairByte_nibbles (b : Byte) : pairByte (b.extractLsb' 4 4).toNat (b.extractLsb' 0 4).toNat = b := by
  rw [pairByte_eq_ofNat _ (BitVec.isLt _), highNibble_toNat, lowNibble_toNat, Nat.div_add_mod', BitVec.ofNat_toNat,
    BitVec.setWidth_eq]

/-- What an encoder writes decodes to its source, in either case (R60). -/
theorem hexValue_hexText (u : Bool) (bs : List Byte) : hexValue (hexText u bs) = some bs := by
  induction bs with
  | nil => rfl
  | cons b bs ih =>
    exact hexValue_cons.2 ⟨_, _, bs, nib_hex u _, nib_hex u _, ih, by rw [pairByte_nibbles]⟩

/-- `DEC16` gives both cases of a letter one value (R59). -/
theorem nib_caseVariant {c c' : Char16} (h : CaseVariant c c') : nib c' = nib c := by
  have hletters : ∀ j < 6, nib (BitVec.ofNat 16 (0x61 + j)) = nib (BitVec.ofNat 16 (0x41 + j)) := by decide
  rcases h with rfl | ⟨j, hj, ⟨rfl, rfl⟩ | ⟨rfl, rfl⟩⟩
  · rfl
  · exact (hletters j hj).symm
  · exact hletters j hj

theorem hexValue_caseVariant {cs cs' : List Char16} (h : List.Forall₂ CaseVariant cs cs') : hexValue cs' = hexValue cs := by
  match cs, cs', h with
  | _, _, .nil => rfl
  | _, _, .cons _ .nil => rfl
  | _, _, .cons h0 (.cons h1 hrest) =>
    rw [hexValue, hexValue, nib_caseVariant h0, nib_caseVariant h1, hexValue_caseVariant hrest]

/-! ### The state after a decoder's pass -/

theorem ends_afterDecode {req : Nat} {s : State} (out : List Byte) (hfits : req ≤ s.dstCap.toNat) :
    Ends true 0 req s (s.afterDecode req out) :=
  ⟨rfl, rfl, Resp.success_count_toNat req hfits, rfl, sameOperands_respond (s.writeBytes out) _⟩

theorem bytesKeptFrom_afterDecode {req : Nat} {out : List Byte} {s : State} (hl : out.length = req)
    (hroom : req ≤ s.bytes.length) : BytesKeptFrom req s (s.afterDecode req out) := by
  subst hl; exact bytesKeptFrom_writeBytes hroom

theorem afterDecode_bytes_getElem? {req k : Nat} {out : List Byte} {s : State} (hl : out.length = req) (hk : k < req) :
    (s.afterDecode req out).bytes[k]? = out[k]? :=
  putPrefix_below _ _ (hl ▸ hk)

theorem ends_afterSpoil (req : Nat) (s : State) : Ends false 2 0 s (s.afterSpoil req) :=
  ⟨rfl, rfl, BitVec.toNat_zero, rfl, sameOperands_respond (s.spoilBytes req) _⟩

theorem bytesKeptFrom_afterSpoil (req : Nat) (s : State) : BytesKeptFrom req s (s.afterSpoil req) :=
  ⟨spoilPrefix_length _ _ _, fun _ hj => spoilPrefix_above _ _ _ hj⟩

/-! ### The checks of the command -/

section EvenLength

variable {n : Nat} {s : State} (hn : s.srcLen.toNat = 2 * n)
include hn

theorem exec_b16dec_even : exec (.b16dec false) s = decodePass (2 * n) n hexValue s := by
  have hreq : reqB16dec (2 * n) = n := Nat.mul_div_cancel_left n (by decide)
  have hexec : exec (.b16dec false) s = decodePass s.srcLen.toNat (reqB16dec s.srcLen.toNat) hexValue s :=
    execB16dec_even (by omega)
  rwa [hn, hreq] at hexec

variable (hcap : n ≤ s.dstCap.toNat) (hsize : 2 * n ≤ s.chars.length) (hroom : n ≤ s.bytes.length)
include hcap hsize hroom

theorem exec_b16dec_of_value {out : List Byte} (hv : hexValue (s.chars.take (2 * n)) = some out) :
    exec (.b16dec false) s = .next (s.afterDecode n out) :=
  (exec_b16dec_even hn).trans (decodePass_ok hcap hsize hroom hv)

/-- A text of hex characters succeeds, and the byte of a pair is `hi × 16 + lo` (R58). -/
theorem b16dec_decodes_nibbles {v : Nat → Nat}
    (hv : ∀ i : Nat, i < 2 * n → ∃ c, s.chars[i]? = some c ∧ nib c = some (v i)) :
    ∃ t, exec (.b16dec false) s = .next t ∧ Ends true 0 n s t ∧ t.chars = s.chars ∧ BytesKeptFrom n s t ∧
      ∀ k : Nat, k < n → t.bytes[k]? = some (BitVec.ofNat 8 (v (2 * k) * 16 + v (2 * k + 1))) := by
  have hvalue : hexValue (s.chars.take (2 * n)) = some (pairBytes v n) := by
    refine hexValue_of_nibbles (by rw [List.length_take, Nat.min_eq_left hsize]) fun i hi => ?_
    obtain ⟨c, hc, hnib⟩ := hv i hi
    rw [List.getElem?_take_of_lt hi, hc, Option.bind_some, hnib]
  have hl := pairBytes_length v n
  refine ⟨_, exec_b16dec_of_value hn hcap hsize hroom hvalue, ends_afterDecode _ hcap, rfl,
    bytesKeptFrom_afterDecode hl hroom, fun k hk => ?_⟩
  obtain ⟨c, -, hlo⟩ := hv (2 * k + 1) (by omega)
  rw [afterDecode_bytes_getElem? hl hk, pairBytes_getElem? v hk, pairByte_eq_ofNat _ (nib_lt hlo)]

/-- A text with any other character fails in the pass (R58, R86). -/
theorem b16dec_fails_without_nibble {i : Nat} {c : Char16} (hi : i < 2 * n) (hc : s.chars[i]? = some c)
    (hnib : nib c = none) :
    ∃ t, exec (.b16dec false) s = .next t ∧ Ends false 2 0 s t ∧ t.chars = s.chars ∧ BytesKeptFrom n s t := by
  have hmem : c ∈ s.chars.take (2 * n) := List.mem_of_getElem? ((List.getElem?_take_of_lt hi).trans hc)
  have hvalue := hexValue_eq_none_of_mem hmem hnib
  exact ⟨_, (exec_b16dec_even hn).trans (decodePass_format hcap hsize hroom hvalue), ends_afterSpoil n s, rfl,
    bytesKeptFrom_afterSpoil n s⟩

end EvenLength

theorem exists_two_mul_of_even {m : Nat} (h : m % 2 = 0) : ∃ n, m = 2 * n ∧ m / 2 = n := ⟨m / 2, by omega, rfl⟩

/-- Settles O18, check by check in the order of the command. -/
theorem b16decFollowsItsChecks : Obligations.B16decFollowsItsChecks := by
  intro s
  refine ⟨rfl, rfl, exec_null rfl s, execB16dec_odd, fun heven hshort => ?_, fun heven hcap hsize hroom => ?_⟩
  all_goals obtain ⟨n, hn, hreq⟩ := exists_two_mul_of_even heven
  · exact (exec_b16dec_even hn).trans (decodePass_capacity (hreq ▸ hshort))
  · rw [hreq] at hcap ⊢
    rw [hn] at hsize ⊢
    have hroom := hcap.trans hroom
    exact ⟨fun v hv => b16dec_decodes_nibbles hn hcap hsize hroom hv,
      fun ⟨_, _, hi, hc, hnib⟩ => b16dec_fails_without_nibble hn hcap hsize hroom hi hc hnib⟩

/-! ### The case of the letters -/

/-- Two results of a decoder on one and the same destination that its host cannot tell apart. -/
def SameDecoding (t t' : State) : Prop := SameResponse t t' ∧ (t.resp.ok = true → t'.bytes = t.bytes)

theorem sameDecoding_raise (c : Cause) (s s' : State) : SameDecoding (s.raise c) (s'.raise c) :=
  ⟨⟨rfl, rfl, by simp⟩, fun h => by cases h⟩

/-- A decoder's pass depends on its text through its value only. -/
theorem decodePass_sameDecoding {L req : Nat} {value : List Char16 → Option (List Byte)} {s s' t : State}
    (hcap : s'.dstCap.toNat = s.dstCap.toNat) (hbytes : s'.bytes = s.bytes) (hchars : s'.chars.length = s.chars.length)
    (hvalue : value (s'.chars.take L) = value (s.chars.take L)) (h : decodePass L req value s = .next t) :
    ∃ t', decodePass L req value s' = .next t' ∧ SameDecoding t t' := by
  rcases decodePass_next h with ⟨hshort, rfl⟩ | ⟨hfits, hsize, hroom, ⟨out, hv, rfl⟩ | ⟨hv, rfl⟩⟩
  · exact ⟨_, decodePass_capacity (hcap ▸ hshort), sameDecoding_raise .capacity s s'⟩
  · refine ⟨_, decodePass_ok (hcap ▸ hfits) (hchars ▸ hsize) (hbytes ▸ hroom) (hvalue.trans hv),
      sameResponse_complete (s := s.writeBytes out) (s' := s'.writeBytes out) hfits (hcap ▸ hfits), fun _ => ?_⟩
    exact congrArg (putPrefix out) hbytes
  · exact ⟨_, decodePass_format (hcap ▸ hfits) (hchars ▸ hsize) (hbytes ▸ hroom) (hvalue.trans hv),
      sameDecoding_raise .format _ _⟩

/-- Settles O34: null and odd length do not look at the text, and the pass sees its value only, which has no case. -/
theorem b16decIgnoresCase : Obligations.B16decIgnoresCase := by
  intro null s s' t hn hcap hbytes hlen hcase h
  have hvariants : List.Forall₂ CaseVariant s.chars s'.chars :=
    List.forall₂_iff_zip.2 ⟨hlen.symm, fun hp => hcase _ hp⟩
  cases null
  case true =>
    rw [exec_null rfl] at h ⊢
    cases h
    exact ⟨_, rfl, sameDecoding_raise .nullInput s s'⟩
  case false =>
    rcases Nat.mod_two_eq_zero_or_one s.srcLen.toNat with heven | hodd
    · obtain ⟨n, heq, -⟩ := exists_two_mul_of_even heven
      rw [exec_b16dec_even heq] at h
      rw [exec_b16dec_even (hn.trans heq)]
      exact decodePass_sameDecoding hcap hbytes hlen (hexValue_caseVariant (List.forall₂_take _ hvariants)) h
    · obtain rfl : s.raise .format = t := Host.Outcome.next.inj ((execB16dec_odd hodd).symm.trans h)
      exact ⟨_, execB16dec_odd (hn ▸ hodd), sameDecoding_raise .format s s'⟩

/-! ### The round trip -/

/-- Settles O35: the destination of the encoder holds the text of the source, whose value is the source. -/
theorem base16RoundTrip : Obligations.Base16RoundTrip := by
  intro u s hsize hroom hcap
  obtain ⟨-, -, hcount, -⟩ := ends_afterEncode (text := hexText u) hcap
  rw [exec_b16encInstr]
  refine ⟨_, encodeCommand_ok hcap hsize (hcap.trans hroom), rfl, hcount, ?_⟩
  rw [hcount, afterEncode_chars_take (hexText_source_length u hsize)]
  intro s' hn hsize' htext hcap' hroom'
  have hvalue := hexValue_hexText u (s.bytes.take s.srcLen.toNat)
  rw [← htext] at hvalue
  obtain ⟨hok, -, hcount', -⟩ := ends_afterDecode (s.bytes.take s.srcLen.toNat) hcap'
  exact ⟨_, exec_b16dec_of_value hn hcap' hsize' (hcap'.trans hroom') hvalue, hok, hcount',
    afterDecode_bytes_take (by rw [List.length_take, Nat.min_eq_left hsize])⟩

end Sys2Proof.Certificates
end

section
/-! PROOF. The base64url encoders: the characters of a chunk and of a tail (O14), and the text an encoder writes (O17). -/

namespace Sys2Proof.Certificates

open Sys2Proof.Machine

/-! ### The characters of a chunk -/

theorem ENC64_getElem?_index (k : BitVec 6) : ENC64[k.toNat]? = some (enc64 k) := List.getElem?_eq_getElem _

theorem toNat_extract_high6 (b : Byte) : (b.extractLsb' 2 6).toNat = b.toNat / 4 := by
  have := b.isLt
  rw [BitVec.extractLsb'_toNat, Nat.shiftRight_eq_div_pow]
  omega

theorem toNat_extract_high2 (b : Byte) : (b.extractLsb' 6 2).toNat = b.toNat / 64 := by
  have := b.isLt
  rw [BitVec.extractLsb'_toNat, Nat.shiftRight_eq_div_pow]
  omega

/-- The bits of `y` stand below those of `x`. -/
theorem toNat_append_eq_add {m n : Nat} (x : BitVec m) (y : BitVec n) : (x ++ y).toNat = x.toNat * 2 ^ n + y.toNat := by
  rw [BitVec.toNat_append, ← Nat.shiftLeft_add_eq_or_of_lt y.isLt, Nat.shiftLeft_eq]

/-- The index of character 1 of a chunk: the low 2 bits of `b0`, then the high 4 of `b1` (R61). -/
theorem toNat_low2_high4 (b0 b1 : Byte) :
    (b0.extractLsb' 0 2 ++ b1.extractLsb' 4 4).toNat = b0.toNat % 4 * 16 + b1.toNat / 16 := by
  rw [toNat_append_eq_add, highNibble_toNat, BitVec.extractLsb'_toNat, Nat.shiftRight_zero]
  rfl

/-- The index of character 2 of a chunk: the low 4 bits of `b1`, then the high 2 of `b2` (R61). -/
theorem toNat_low4_high2 (b1 b2 : Byte) :
    (b1.extractLsb' 0 4 ++ b2.extractLsb' 6 2).toNat = b1.toNat % 16 * 4 + b2.toNat / 64 := by
  rw [toNat_append_eq_add, lowNibble_toNat, toNat_extract_high2]
  rfl

/-- The four indices of a chunk, byte by byte (R61). -/
theorem chunk3_map_some (b0 b1 b2 : Byte) :
    (chunk3 b0 b1 b2).map some =
      [ENC64[b0.toNat / 4]?, ENC64[b0.toNat % 4 * 16 + b1.toNat / 16]?, ENC64[b1.toNat % 16 * 4 + b2.toNat / 64]?,
       ENC64[b2.toNat % 64]?] := by
  have hlow6 : (b2.extractLsb' 0 6).toNat = b2.toNat % 64 := by rw [BitVec.extractLsb'_toNat, Nat.shiftRight_zero]
  rw [← toNat_extract_high6, ← toNat_low2_high4, ← toNat_low4_high2, ← hlow6]
  simp only [ENC64_getElem?_index]
  rfl

/-- `TAIL1` is the front of a chunk (R62). -/
theorem tail1_eq_take_chunk3 (b0 : Byte) : tail1 b0 = (chunk3 b0 0 0).take 2 := rfl

/-- `TAIL2` is the front of a chunk (R63). -/
theorem tail2_eq_take_chunk3 (b0 b1 : Byte) : tail2 b0 b1 = (chunk3 b0 b1 0).take 3 := rfl

/-- Each 6-bit field of a 24-bit number takes its bits from one of its bytes or from two neighbours. -/
theorem fields_of_three_bytes (b0 b1 b2 : Byte) {w : Nat} (hw : w = b0.toNat * 65536 + b1.toNat * 256 + b2.toNat) :
    w / 2 ^ 18 % 64 = b0.toNat / 4 ∧ w / 2 ^ 12 % 64 = b0.toNat % 4 * 16 + b1.toNat / 16 ∧
    w / 2 ^ 6 % 64 = b1.toNat % 16 * 4 + b2.toNat / 64 ∧ w % 64 = b2.toNat % 64 := by
  have h0 := b0.isLt
  have h1 := b1.isLt
  have h2 := b2.isLt
  omega

/-- Settles O14: both sides are the four indices byte by byte. -/
theorem chunkIndicesAreSixBitFields : Obligations.ChunkIndicesAreSixBitFields := by
  intro b0 b1 b2
  refine ⟨?_, tail1_eq_take_chunk3 b0, tail2_eq_take_chunk3 b0 b1⟩
  intro w
  obtain ⟨h0, h1, h2, h3⟩ := fields_of_three_bytes b0 b1 b2 rfl
  rw [chunk3_map_some, ← h0, ← h1, ← h2, ← h3]

/-! ### The 6-bit fields of a byte sequence -/

/-- Byte `i` of a sequence that goes on with zeros. -/
def byteOrZero (bs : List Byte) (i : Nat) : Byte := bs[i]?.getD 0

/-- Bits `6j` to `6j + 5` of a string of bytes `v`. -/
def sextet (v : Nat → Byte) (j : Nat) : Nat :=
  ((v (6 * j / 8)).toNat * 256 + (v (6 * j / 8 + 1)).toNat) / 2 ^ (10 - 6 * j % 8) % 64

theorem byteOrZero_take_toNat (bs : List Byte) (n i : Nat) :
    (byteOrZero (bs.take n) i).toNat = if i < n then (bs[i]?.getD 0).toNat else 0 := by
  rw [byteOrZero, List.getElem?_take]
  split <;> rfl

/-- The fields of the statement are those of the command's source. -/
theorem sextetAt_eq_sextet (bs : List Byte) (n j : Nat) : sextetAt bs n j = sextet (byteOrZero (bs.take n)) j := by
  rw [sextet, byteOrZero_take_toNat, byteOrZero_take_toNat]
  rfl

/-- Four fields are three bytes. -/
theorem sextet_add_four (v : Nat → Byte) (j : Nat) : sextet v (j + 4) = sextet (fun i => v (i + 3)) j := by
  have hquot : 6 * (j + 4) / 8 = 6 * j / 8 + 3 := by omega
  have hrem : 6 * (j + 4) % 8 = 6 * j % 8 := by omega
  rw [sextet, hquot, hrem, Nat.add_right_comm, sextet]

/-- The fields of the first three bytes are the indices of their chunk. -/
theorem sextet_chunk (v : Nat → Byte) :
    sextet v 0 = (v 0).toNat / 4 ∧ sextet v 1 = (v 0).toNat % 4 * 16 + (v 1).toNat / 16 ∧
    sextet v 2 = (v 1).toNat % 16 * 4 + (v 2).toNat / 64 ∧ sextet v 3 = (v 2).toNat % 64 := by
  have h0 := (v 0).isLt
  have h1 := (v 1).isLt
  have h2 := (v 2).isLt
  have h3 := (v 3).isLt
  simp only [sextet, Nat.reduceMul, Nat.reduceDiv, Nat.reduceMod, Nat.reduceAdd, Nat.reduceSub, Nat.reducePow]
  omega

/-- The characters of a chunk are those of the first four fields. -/
theorem chunk3_getElem?_sextet (v : Nat → Byte) {j : Nat} (hj : j < 4) :
    (chunk3 (v 0) (v 1) (v 2))[j]? = ENC64[sextet v j]? := by
  have hchars := chunk3_map_some (v 0) (v 1) (v 2)
  obtain ⟨h0, h1, h2, h3⟩ := sextet_chunk v
  rw [← h0, ← h1, ← h2, ← h3] at hchars
  injection hchars with e0 hchars
  injection hchars with e1 hchars
  injection hchars with e2 hchars
  injection hchars with e3
  match j, hj with
  | 0, _ => exact e0
  | 1, _ => exact e1
  | 2, _ => exact e2
  | 3, _ => exact e3

/-! ### The text of a byte sequence -/

/-- Every field that begins within the source has its character there (R65). -/
theorem b64Text_getElem?_sextet (pad : Bool) {bs : List Byte} {j : Nat} (hj : 6 * j < 8 * bs.length) :
    (b64Text pad bs)[j]? = ENC64[sextet (byteOrZero bs) j]? := by
  induction bs using b64Text.induct generalizing j with
  | case1 => simp at hj
  | case2 b0 =>
    have hj : j < 2 := by simp only [List.length_cons, List.length_nil] at hj; omega
    rw [b64Text, List.getElem?_append_left hj, tail1_eq_take_chunk3, List.getElem?_take_of_lt hj]
    exact chunk3_getElem?_sextet (byteOrZero [b0]) (by omega)
  | case3 b0 b1 =>
    have hj : j < 3 := by simp only [List.length_cons, List.length_nil] at hj; omega
    rw [b64Text, List.getElem?_append_left hj, tail2_eq_take_chunk3, List.getElem?_take_of_lt hj]
    exact chunk3_getElem?_sextet (byteOrZero [b0, b1]) (by omega)
  | case4 b0 b1 b2 rest ih =>
    rw [b64Text]
    rcases Nat.lt_or_ge j 4 with hfirst | hlater
    · rw [List.getElem?_append_left hfirst]
      exact chunk3_getElem?_sextet (byteOrZero (b0 :: b1 :: b2 :: rest)) hfirst
    · obtain ⟨k, rfl⟩ := Nat.exists_eq_add_of_le' hlater
      rw [sextet_add_four]
      exact ih (by simp only [List.length_cons] at hj; omega)

theorem eq_PADCH_of_append_getElem? {front pads : List Char16} {j : Nat} {c : Char16}
    (hpads : ∀ p ∈ pads, p = PADCH) (hj : front.length ≤ j) (hc : (front ++ pads)[j]? = some c) : c = PADCH := by
  rw [List.getElem?_append_right hj] at hc
  exact hpads c (List.mem_of_getElem? hc)

/-- Past the fields that begin within the source a text has padding only (R66). -/
theorem eq_PADCH_of_b64Text_getElem? {pad : Bool} {bs : List Byte} {j : Nat} {c : Char16}
    (hj : 8 * bs.length ≤ 6 * j) (hc : (b64Text pad bs)[j]? = some c) : c = PADCH := by
  induction bs using b64Text.induct generalizing j with
  | case1 => simp [b64Text] at hc
  | case2 b0 =>
    have hj : 2 ≤ j := by simp only [List.length_cons, List.length_nil] at hj; omega
    exact eq_PADCH_of_append_getElem? (by cases pad <;> simp) hj hc
  | case3 b0 b1 =>
    have hj : 3 ≤ j := by simp only [List.length_cons, List.length_nil] at hj; omega
    exact eq_PADCH_of_append_getElem? (by cases pad <;> simp) hj hc
  | case4 b0 b1 b2 rest ih =>
    simp only [List.length_cons] at hj
    obtain ⟨k, rfl⟩ := Nat.exists_eq_add_of_le' (show 4 ≤ j by omega)
    exact ih (by omega) hc

/-! ### The two commands -/

/-- Both commands have one `REQ` and differ in their padding only (R65, R66). -/
theorem exec_b64encInstr (pad : Bool) (s : State) :
    exec (b64encInstr pad) s =
      encodeCommand ((s.srcLen.toNat + 2) / 3 * 4) (countB64enc pad s.srcLen.toNat) (b64Text pad) s := by
  cases pad <;> rfl

/-- The table of R64 in one formula for each command. -/
theorem countB64enc_eq (pad : Bool) (n : Nat) :
    countB64enc pad n = if pad then (n + 2) / 3 * 4 else 4 * (n / 3) + (if n % 3 = 0 then 0 else n % 3 + 1) := by
  unfold countB64enc; split_ifs <;> omega

/-- A field that begins within the source is counted. -/
theorem lt_countB64enc (pad : Bool) {n j : Nat} (h : 6 * j < 8 * n) : j < countB64enc pad n := by
  unfold countB64enc; split_ifs <;> omega

theorem b64Text_source_length (pad : Bool) {s : State} (hsize : s.srcLen.toNat ≤ s.bytes.length) :
    (b64Text pad (s.bytes.take s.srcLen.toNat)).length = countB64enc pad s.srcLen.toNat := by
  rw [b64Text_length, List.length_take, Nat.min_eq_left hsize]

/-- Settles O17: the capacity check, then the state after the encoding, whose text is read field by field. -/
theorem b64encWritesSixBitFields : Obligations.B64encWritesSixBitFields := by
  intro pad s
  rw [exec_b64encInstr]
  refine ⟨by cases pad <;> rfl, encodeCommand_capacity, fun hcap hsize hroom => ?_⟩
  rw [← countB64enc_eq]
  have hl := b64Text_source_length pad hsize
  have hsource : (s.bytes.take s.srcLen.toNat).length = s.srcLen.toNat := List.length_take_of_le hsize
  have hfits := (countB64enc_le pad s.srcLen.toNat).trans hcap
  refine ⟨_, encodeCommand_ok hcap hsize (hcap.trans hroom), ends_afterEncode hfits, rfl,
    charsKeptFrom_afterEncode hl (hfits.trans hroom), fun j hj => ?_, fun j hpast hj => ?_⟩
  · rw [afterEncode_chars_getElem? hl (lt_countB64enc pad hj), sextetAt_eq_sextet]
    exact b64Text_getElem?_sextet pad (hsource.symm ▸ hj)
  · rw [afterEncode_chars_getElem? hl hj]
    have hc := List.getElem?_eq_getElem (hl.symm ▸ hj)
    rw [hc, eq_PADCH_of_b64Text_getElem? (hsource.symm ▸ hpast) hc]
    rfl

end Sys2Proof.Certificates
end

section
/-! PROOF. The base64url decoder: the characters with a symbol value (O12), the bytes of a group (O13), the trim (O15), the
checks of `B64DEC` and `B64DEC.T` (O19), the spare bits of a short group (O37), and the round trip with the base64url
encoders (O36). -/

namespace Sys2Proof.Certificates

open Sys2Proof.Machine

/-! ### The symbol values -/

/-- The high byte is tested before the map (R68). -/
theorem high_eq_zero_of_sym {c : Char16} {v : Nat} (h : sym c = some v) : c.high = 0 := by
  obtain ⟨hhigh, -⟩ := Option.ite_none_left_eq_some.1 h
  exact not_not.1 hhigh

/-- A character has a symbol value exactly when it stands at that place of the alphabet (R14, R68). -/
theorem sym_eq_some_iff (c : Char16) (v : Nat) : sym c = some v ↔ ∃ k, enc64 k = c ∧ k.toNat = v := by
  constructor
  · intro h
    have hhigh := high_eq_zero_of_sym h
    simp only [sym, entryValue, Option.ite_none_left_eq_some, Option.some.injEq, Bool.not_eq_true] at h
    obtain ⟨-, hvalid, rfl⟩ := h
    exact ⟨_, (enc64_dec64 c.low hvalid).trans (low_setWidth_of_high_eq_zero hhigh),
      Nat.mod_eq_of_lt (dec64_valid _ hvalid)⟩
  · rintro ⟨k, rfl, rfl⟩
    exact sym_enc64 k

/-- The places of `ENC64` are the 6-bit indices. -/
theorem ENC64_getElem?_eq_some_iff (v : Nat) (c : Char16) : ENC64[v]? = some c ↔ ∃ k, enc64 k = c ∧ k.toNat = v := by
  constructor
  · intro h
    obtain ⟨hv, hc⟩ := List.getElem?_eq_some_iff.1 h
    rw [ENC64_length] at hv
    have hk : (BitVec.ofNat 6 v).toNat = v := by rw [BitVec.toNat_ofNat]; exact Nat.mod_eq_of_lt hv
    refine ⟨BitVec.ofNat 6 v, Option.some.inj ?_, hk⟩
    rw [← ENC64_getElem?_index, hk, h]
  · rintro ⟨k, rfl, rfl⟩
    exact ENC64_getElem?_index k

/-- Settles O12: both sides say that the character stands at place `v` of the alphabet. -/
theorem symbolOfExactlyTheAlphabet : Obligations.SymbolOfExactlyTheAlphabet :=
  fun c v => (sym_eq_some_iff c v).trans (ENC64_getElem?_eq_some_iff v c).symm

theorem sym_PADCH : sym PADCH = none := rfl

/-! ### The bytes of a group -/

/-- A byte of a group is a field of 8 bits of two neighbouring symbols, `j` bits above the end of the second (R69). -/
theorem trunc8_shiftLeft_or_shiftRight (hi : Nat) {k j lo : Nat} (hkj : k + j = 6) (h : lo < 64) :
    trunc8 (hi <<< k ||| lo >>> j) = BitVec.ofNat 8 ((hi * 64 + lo) / 2 ^ j) := by
  have hpow : 2 ^ k * 2 ^ j = 64 := by rw [← pow_add, hkj]; rfl
  have hlo : lo / 2 ^ j < 2 ^ k := Nat.div_lt_of_lt_mul (by rwa [Nat.mul_comm, hpow])
  have hdiv : (hi * 64 + lo) / 2 ^ j = hi * 2 ^ k + lo / 2 ^ j := by
    rw [← hpow, ← Nat.mul_assoc, Nat.add_comm, Nat.add_mul_div_right _ _ (Nat.two_pow_pos j), Nat.add_comm]
  rw [trunc8, Nat.shiftRight_eq_div_pow, ← Nat.shiftLeft_add_eq_or_of_lt hlo, Nat.shiftLeft_eq, hdiv]

theorem group4_eq (s0 : Nat) {s1 s2 s3 : Nat} (h1 : s1 < 64) (h2 : s2 < 64) (h3 : s3 < 64) :
    group4 s0 s1 s2 s3 =
      [BitVec.ofNat 8 ((s0 * 64 + s1) / 2 ^ 4), BitVec.ofNat 8 ((s1 * 64 + s2) / 2 ^ 2),
       BitVec.ofNat 8 ((s2 * 64 + s3) / 2 ^ 0)] := by
  rw [← trunc8_shiftLeft_or_shiftRight s0 (k := 2) rfl h1, ← trunc8_shiftLeft_or_shiftRight s1 (k := 4) rfl h2,
    ← trunc8_shiftLeft_or_shiftRight s2 (k := 6) rfl h3]
  rfl

/-- The short groups are the front of a full one (R69). -/
theorem group3_eq_take_group4 (s0 s1 s2 s3 : Nat) : group3 s0 s1 s2 = (group4 s0 s1 s2 s3).take 2 := rfl

theorem group2_eq_take_group4 (s0 s1 s2 s3 : Nat) : group2 s0 s1 = (group4 s0 s1 s2 s3).take 1 := rfl

/-- Truncation drops the bits of a symbol that the byte before has taken (R69). -/
theorem group4_map_toNat {s0 s1 s2 s3 : Nat} (h0 : s0 < 64) (h1 : s1 < 64) (h2 : s2 < 64) (h3 : s3 < 64) :
    (group4 s0 s1 s2 s3).map BitVec.toNat = [s0 * 4 + s1 / 16, s1 % 16 * 16 + s2 / 4, s2 % 4 * 64 + s3] := by
  have hb0 : (s0 * 64 + s1) / 2 ^ 4 % 2 ^ 8 = s0 * 4 + s1 / 16 := by omega
  have hb1 : (s1 * 64 + s2) / 2 ^ 2 % 2 ^ 8 = s1 % 16 * 16 + s2 / 4 := by omega
  have hb2 : (s2 * 64 + s3) / 2 ^ 0 % 2 ^ 8 = s2 % 4 * 64 + s3 := by omega
  simp only [group4_eq s0 h1 h2 h3, List.map_cons, List.map_nil, BitVec.toNat_ofNat, hb0, hb1, hb2]

/-- Settles O13: a full group byte by byte, and the short groups as its front. -/
theorem groupBytesAreTruncated : Obligations.GroupBytesAreTruncated := by
  intro s0 s1 s2 s3 h0 h1 h2 h3
  refine ⟨?_, ?_, group4_map_toNat h0 h1 h2 h3⟩
  · rw [group2_eq_take_group4 s0 s1 s2 s3, List.map_take, group4_map_toNat h0 h1 h2 h3]
    rfl
  · rw [group3_eq_take_group4 s0 s1 s2 s3, List.map_take, group4_map_toNat h0 h1 h2 h3]
    rfl

/-! ### The trim -/

/-- What the trim answers is a trimmed length (R70). -/
theorem isTrimmed_trimLen (src : List Char16) (n : Nat) : IsTrimmed src n (trimLen src n) := by
  induction n with
  | zero => exact ⟨Nat.le_refl 0, .inl rfl, fun _ _ hi => absurd hi (Nat.not_lt_zero _)⟩
  | succ n ih =>
    rw [trimLen]
    split
    · next hpad =>
      obtain ⟨hle, hlast, hcut⟩ := ih
      refine ⟨Nat.le_succ_of_le hle, hlast, fun i hi hlt => ?_⟩
      rcases Nat.lt_succ_iff_lt_or_eq.1 hlt with hlt | rfl
      · exact hcut i hi hlt
      · exact hpad
    · next hpad => exact ⟨Nat.le_refl _, .inr hpad, fun i hi hlt => absurd hi (Nat.not_le.2 hlt)⟩

/-- No longer length is without an `=` at its end. -/
theorem IsTrimmed.le_of_no_pad {src : List Char16} {n L M : Nat} (h : IsTrimmed src n L) (hM : M ≤ n)
    (hlast : M = 0 ∨ src[M - 1]? ≠ some 0x003D) : M ≤ L := by
  obtain ⟨-, -, hcut⟩ := h
  by_contra hlt
  rcases hlast with rfl | hlast
  · omega
  · exact hlast (hcut (M - 1) (by omega) (by omega))

/-- A source has one trimmed length. -/
theorem IsTrimmed.eq_trimLen {src : List Char16} {n L : Nat} (h : IsTrimmed src n L) : L = trimLen src n := by
  have htrim := isTrimmed_trimLen src n
  have ⟨hle, hlast, _⟩ := h
  have ⟨hle', hlast', _⟩ := htrim
  exact Nat.le_antisymm (htrim.le_of_no_pad hle hlast) (h.le_of_no_pad hle' hlast')

/-- Settles O15: the trimmed length by recursion on the length, and any other such length within it. -/
theorem trimRemovesEveryTrailingPad : Obligations.TrimRemovesEveryTrailingPad :=
  fun src n _ => ⟨isTrimmed_trimLen src n, fun _ hM hlast => (isTrimmed_trimLen src n).le_of_no_pad hM hlast⟩

/-! ### The value of a text -/

/-- The first `n` bytes of a string of symbol values. -/
def octets (v : Nat → Nat) (n : Nat) : List Byte := (List.range n).map (octetAt v)

theorem octets_length (v : Nat → Nat) (n : Nat) : (octets v n).length = n := by
  rw [octets, List.length_map, List.length_range]

theorem octets_getElem? (v : Nat → Nat) {n m : Nat} (h : m < n) : (octets v n)[m]? = some (octetAt v m) := by
  rw [octets, List.getElem?_map, List.getElem?_range h]
  rfl

/-- Three bytes are four symbols. -/
theorem octetAt_add_three (v : Nat → Nat) (m : Nat) : octetAt v (m + 3) = octetAt (fun i => v (i + 4)) m := by
  have hquot : 8 * (m + 3) / 6 = 8 * m / 6 + 4 := by omega
  have hrem : 8 * (m + 3) % 6 = 8 * m % 6 := by omega
  rw [octetAt, hquot, hrem, Nat.add_right_comm, octetAt]

theorem octets_three_add (v : Nat → Nat) (n : Nat) :
    octets v (3 + n) = octets v 3 ++ octets (fun i => v (i + 4)) n := by
  rw [octets, List.range_add, List.map_append, List.map_map]
  congr 1
  exact List.map_congr_left fun m _ => by rw [Function.comp_apply, Nat.add_comm, octetAt_add_three]

/-- The first bytes of a string are the groups of its first symbols (R69). -/
theorem octets_one (v : Nat → Nat) (h1 : v 1 < 64) : octets v 1 = group2 (v 0) (v 1) := by
  rw [group2, trunc8_shiftLeft_or_shiftRight _ rfl h1]
  rfl

theorem octets_two (v : Nat → Nat) (h1 : v 1 < 64) (h2 : v 2 < 64) : octets v 2 = group3 (v 0) (v 1) (v 2) := by
  rw [group3, trunc8_shiftLeft_or_shiftRight _ rfl h1, trunc8_shiftLeft_or_shiftRight _ rfl h2]
  rfl

theorem octets_three (v : Nat → Nat) (h1 : v 1 < 64) (h2 : v 2 < 64) (h3 : v 3 < 64) :
    octets v 3 = group4 (v 0) (v 1) (v 2) (v 3) := by
  rw [group4_eq _ h1 h2 h3]
  rfl

/-- A text whose characters have the symbol values `v` decodes to their 8-bit fields (R71). -/
theorem b64Value_of_symbols {cs : List Char16} {v : Nat → Nat} {n : Nat} (hlen : cs.length = n) (hn : n % 4 ≠ 1)
    (hv : ∀ i < n, cs[i]?.bind sym = some (v i)) : b64Value cs = some (octets v (n * 3 / 4)) := by
  have hlt : ∀ i < n, v i < 64 := fun i hi => by
    obtain ⟨c, -, hsym⟩ := Option.bind_eq_some_iff.1 (hv i hi)
    exact sym_lt hsym
  match cs with
  | [] =>
    obtain rfl : 0 = n := hlen
    rfl
  | [_] => exact absurd hlen.symm (fun h => hn (by rw [h]; rfl))
  | [c0, c1] =>
    obtain rfl : 2 = n := hlen
    exact b64Value_two.2 ⟨v 0, v 1, hv 0 (by decide), hv 1 (by decide), octets_one v (hlt 1 (by decide))⟩
  | [c0, c1, c2] =>
    obtain rfl : 3 = n := hlen
    exact b64Value_three.2 ⟨v 0, v 1, v 2, hv 0 (by decide), hv 1 (by decide), hv 2 (by decide),
      octets_two v (hlt 1 (by decide)) (hlt 2 (by decide))⟩
  | c0 :: c1 :: c2 :: c3 :: rest =>
    obtain rfl : rest.length + 4 = n := hlen
    have hrest : b64Value rest = some (octets (fun i => v (i + 4)) (rest.length * 3 / 4)) :=
      b64Value_of_symbols rfl (by omega) fun i hi => hv (i + 4) (by omega)
    have hcount : (rest.length + 4) * 3 / 4 = 3 + rest.length * 3 / 4 := by omega
    refine b64Value_cons.2 ⟨v 0, v 1, v 2, v 3, _, hv 0 (by omega), hv 1 (by omega), hv 2 (by omega), hv 3 (by omega),
      hrest, ?_⟩
    rw [hcount, octets_three_add, octets_three v (hlt 1 (by omega)) (hlt 2 (by omega)) (hlt 3 (by omega))]

/-- One character without a symbol value spoils the text. -/
theorem b64Value_eq_none_of_mem {cs : List Char16} {c : Char16} (hc : c ∈ cs) (hsym : sym c = none) :
    b64Value cs = none := by
  rw [← Option.not_isSome_iff_eq_none, b64Value_isSome]
  rintro ⟨-, hall⟩
  simpa [hsym] using hall c hc

/-- So does one character alone at the end. -/
theorem b64Value_eq_none_of_length {cs : List Char16} (h : cs.length % 4 = 1) : b64Value cs = none := by
  rw [← Option.not_isSome_iff_eq_none, b64Value_isSome]
  exact fun ⟨hl, _⟩ => hl h

/-! ### The checks of the two commands -/

section TextLength

variable {trim : Bool} {L : Nat} {s : State} (hL : IsTextLength trim s L)
include hL

theorem IsTextLength.le_srcLen : L ≤ s.srcLen.toNat := by
  cases trim
  · exact Nat.le_of_eq hL
  · obtain ⟨hle, -⟩ := hL
    exact hle

/-- Both commands are one pass, but for the length of their text (R71, R72). -/
theorem exec_b64decOf (htrim : trim = true → s.srcLen.toNat ≤ s.chars.length) :
    exec (b64decOf trim false) s = decodePass L (L * 3 / 4) b64Value s := by
  cases trim
  case false =>
    obtain rfl : L = s.srcLen.toNat := hL
    rfl
  case true =>
    obtain rfl : L = trimLen s.chars s.srcLen.toNat := IsTrimmed.eq_trimLen hL
    exact execB64decT_present (htrim rfl)

theorem exec_b64decOf_capacity (htrim : trim = true → s.srcLen.toNat ≤ s.chars.length)
    (hshort : s.dstCap.toNat < L * 3 / 4) : exec (b64decOf trim false) s = .next (failed 3 s) :=
  (exec_b64decOf hL htrim).trans (decodePass_capacity hshort)

variable (hcap : L * 3 / 4 ≤ s.dstCap.toNat) (hsize : s.srcLen.toNat ≤ s.chars.length)
  (hroom : s.dstCap.toNat ≤ s.bytes.length)
include hcap hsize hroom

theorem exec_b64decOf_of_value {out : List Byte} (hv : b64Value (s.chars.take L) = some out) :
    exec (b64decOf trim false) s = .next (s.afterDecode (L * 3 / 4) out) :=
  (exec_b64decOf hL fun _ => hsize).trans
    (decodePass_ok hcap (hL.le_srcLen.trans hsize) (hcap.trans hroom) hv)

/-- A text of symbols succeeds with their 8-bit fields (R71). -/
theorem b64dec_decodes_symbols {v : Nat → Nat} (hl : L % 4 ≠ 1)
    (hv : ∀ i : Nat, i < L → ∃ c, s.chars[i]? = some c ∧ sym c = some (v i)) :
    ∃ t, exec (b64decOf trim false) s = .next t ∧ Ends true 0 (L * 3 / 4) s t ∧ t.chars = s.chars ∧
      BytesKeptFrom (L * 3 / 4) s t ∧ ∀ m : Nat, m < L * 3 / 4 → t.bytes[m]? = some (octetAt v m) := by
  have htext : (s.chars.take L).length = L := List.length_take_of_le (hL.le_srcLen.trans hsize)
  have hvalue : b64Value (s.chars.take L) = some (octets v (L * 3 / 4)) := by
    refine b64Value_of_symbols htext hl fun i hi => ?_
    obtain ⟨c, hc, hsym⟩ := hv i hi
    rw [List.getElem?_take_of_lt hi, hc, Option.bind_some, hsym]
  have hlen := octets_length v (L * 3 / 4)
  refine ⟨_, exec_b64decOf_of_value hL hcap hsize hroom hvalue, ends_afterDecode _ hcap, rfl,
    bytesKeptFrom_afterDecode hlen (hcap.trans hroom), fun m hm => ?_⟩
  rw [afterDecode_bytes_getElem? hlen hm, octets_getElem? v hm]

/-- Any other text fails in the pass (R71, R86). -/
theorem b64dec_fails_on_other_text
    (hbad : L % 4 = 1 ∨ ∃ (i : Nat) (c : Char16), i < L ∧ s.chars[i]? = some c ∧ sym c = none) :
    ∃ t, exec (b64decOf trim false) s = .next t ∧ Ends false 2 0 s t ∧ t.chars = s.chars ∧
      BytesKeptFrom (L * 3 / 4) s t := by
  have hLsize := hL.le_srcLen.trans hsize
  have hvalue : b64Value (s.chars.take L) = none := by
    rcases hbad with hl | ⟨i, c, hi, hc, hsym⟩
    · exact b64Value_eq_none_of_length (by rwa [List.length_take_of_le hLsize])
    · exact b64Value_eq_none_of_mem (List.mem_of_getElem? ((List.getElem?_take_of_lt hi).trans hc)) hsym
  exact ⟨_, (exec_b64decOf hL fun _ => hsize).trans (decodePass_format hcap hLsize (hcap.trans hroom) hvalue),
    ends_afterSpoil _ s, rfl, bytesKeptFrom_afterSpoil _ s⟩

end TextLength

/-- Settles O19, check by check in the order of the commands. -/
theorem b64decFollowsItsChecks : Obligations.B64decFollowsItsChecks := by
  intro trim s
  refine ⟨by cases trim <;> rfl, by cases trim <;> rfl, by cases trim <;> exact exec_null rfl s, fun L hL => ?_⟩
  exact ⟨exec_b64decOf_capacity hL, fun hcap hsize hroom =>
    ⟨fun _ => b64dec_decodes_symbols hL hcap hsize hroom, b64dec_fails_on_other_text hL hcap hsize hroom⟩⟩

/-! ### The spare bits of a short group -/

/-- The characters `c` and `c'` have symbol values that agree in the bits a final group uses of its last one, in a text
of `n` characters (R73). -/
def AgreeInUsedBits (n : Nat) (c c' : Char16) : Prop :=
  ∃ v v' : Nat, sym c = some v ∧ sym c' = some v' ∧ (n % 4 = 2 ∧ v / 16 = v' / 16 ∨ n % 4 = 3 ∧ v / 4 = v' / 4)

theorem group2_eq_of_used_bits (s0 : Nat) {v v' : Nat} (h : v / 16 = v' / 16) : group2 s0 v = group2 s0 v' := by
  rw [group2, group2, Nat.shiftRight_eq_div_pow v, Nat.shiftRight_eq_div_pow v', h]

theorem group3_eq_of_used_bits (s0 s1 : Nat) {v v' : Nat} (h : v / 4 = v' / 4) : group3 s0 s1 v = group3 s0 s1 v' := by
  rw [group3, group3, Nat.shiftRight_eq_div_pow v, Nat.shiftRight_eq_div_pow v', h]

/-- The value of a text sees of the last character of a short group the used bits only. -/
theorem b64Value_append_last {front : List Char16} {c c' : Char16} (h : AgreeInUsedBits (front.length + 1) c c') :
    b64Value (front ++ [c']) = b64Value (front ++ [c]) := by
  obtain ⟨v, v', hc, hc', hused⟩ := h
  match front with
  | [] => simp at hused
  | [c0] =>
    have hbits : v / 16 = v' / 16 := by simpa using hused
    simp only [List.cons_append, List.nil_append, b64Value, hc, hc']
    cases sym c0 with
    | none => rfl
    | some s0 => exact congrArg some (group2_eq_of_used_bits s0 hbits).symm
  | [c0, c1] =>
    have hbits : v / 4 = v' / 4 := by simpa using hused
    simp only [List.cons_append, List.nil_append, b64Value, hc, hc']
    cases sym c0 with
    | none => rfl
    | some s0 =>
      cases sym c1 with
      | none => rfl
      | some s1 => exact congrArg some (group3_eq_of_used_bits s0 s1 hbits).symm
  | [c0, c1, c2] => simp at hused
  | c0 :: c1 :: c2 :: c3 :: rest =>
    have hrest : b64Value (rest ++ [c']) = b64Value (rest ++ [c]) := by
      refine b64Value_append_last ⟨v, v', hc, hc', ?_⟩
      simp only [List.length_cons] at hused
      omega
    simp only [List.cons_append, b64Value, hrest]

/-- A text up to and with its last character. -/
theorem take_eq_append_last {α : Type} {l : List α} {n : Nat} {a : α} (hn : 0 < n) (h : l[n - 1]? = some a) :
    l.take n = l.take (n - 1) ++ [a] := by
  obtain ⟨m, rfl⟩ := Nat.exists_eq_add_of_lt hn
  rw [Nat.zero_add, Nat.add_sub_cancel] at h ⊢
  rw [List.take_add_one, h]
  rfl

/-- Settles O37: the pass sees the value of the text only, and the value the used bits only. -/
theorem spareBitsAreNotExamined : Obligations.SpareBitsAreNotExamined := by
  intro s s' t c c' v v' hn hcap hbytes hsize hchars hc hv hv' hused h
  have hpos : 0 < s.srcLen.toNat := by omega
  have hlen : s'.chars.length = s.chars.length := by rw [hchars, List.length_set]
  have hc' : s'.chars[s.srcLen.toNat - 1]? = some c' := by rw [hchars, List.getElem?_set_self (by omega)]
  have hfront : s'.chars.take (s.srcLen.toNat - 1) = s.chars.take (s.srcLen.toNat - 1) := by
    rw [hchars, List.take_set_of_le (Nat.le_refl _)]
  have hvalue : b64Value (s'.chars.take s.srcLen.toNat) = b64Value (s.chars.take s.srcLen.toNat) := by
    rw [take_eq_append_last hpos hc', take_eq_append_last hpos hc, hfront]
    refine b64Value_append_last ⟨v, v', hv, hv', ?_⟩
    rwa [List.length_take_of_le (by omega), Nat.sub_add_cancel hpos]
  have hexec' : exec (.b64dec false) s' = decodePass s.srcLen.toNat (reqB64dec s.srcLen.toNat) b64Value s' := by
    rw [← hn]; rfl
  rw [hexec']
  exact decodePass_sameDecoding hcap hbytes hlen hvalue h

/-! ### The round trip -/

/-- The four indices of a chunk are a group of its three bytes (R61, R69). -/
theorem group4_chunk (b0 b1 b2 : Byte) :
    group4 (b0.extractLsb' 2 6).toNat (b0.extractLsb' 0 2 ++ b1.extractLsb' 4 4).toNat
      (b1.extractLsb' 0 4 ++ b2.extractLsb' 6 2).toNat (b2.extractLsb' 0 6).toNat = [b0, b1, b2] := by
  have h1 := b1.isLt
  have h2 := b2.isLt
  apply List.map_injective_iff.2 (fun _ _ => BitVec.eq_of_toNat_eq)
  rw [group4_map_toNat (BitVec.isLt _) (BitVec.isLt _) (BitVec.isLt _) (BitVec.isLt _), toNat_extract_high6,
    toNat_low2_high4, toNat_low4_high2, BitVec.extractLsb'_toNat, Nat.shiftRight_zero]
  simp only [List.map_cons, List.map_nil, List.cons.injEq, and_true]
  omega

/-- What an encoder writes without padding decodes to its source (R74). -/
theorem b64Value_b64Text (bs : List Byte) : b64Value (b64Text false bs) = some bs := by
  induction bs using b64Text.induct with
  | case1 => rfl
  | case2 b0 =>
    exact b64Value_two.2 ⟨_, _, sym_enc64 _, sym_enc64 _, (congrArg (List.take 1) (group4_chunk b0 0 0)).symm⟩
  | case3 b0 b1 =>
    exact b64Value_three.2 ⟨_, _, _, sym_enc64 _, sym_enc64 _, sym_enc64 _,
      (congrArg (List.take 2) (group4_chunk b0 b1 0)).symm⟩
  | case4 b0 b1 b2 rest ih =>
    exact b64Value_cons.2 ⟨_, _, _, _, rest, sym_enc64 _, sym_enc64 _, sym_enc64 _, sym_enc64 _, ih,
      by rw [group4_chunk]; rfl⟩

/-- The text without padding has a character for every 6 bits begun (R64). -/
theorem countB64enc_false (n : Nat) : countB64enc false n = (8 * n + 5) / 6 := by
  rw [countB64enc_eq, if_neg Bool.false_ne_true]
  split <;> omega

theorem countB64enc_true (n : Nat) : countB64enc true n = (n + 2) / 3 * 4 := by rw [countB64enc_eq, if_pos rfl]

/-- The characters that carry bits of the source are those of the text without padding. -/
theorem lt_countB64enc_false_iff (n j : Nat) : j < countB64enc false n ↔ 6 * j < 8 * n := by
  rw [countB64enc_false]; omega

/-- They are as many as decode to the source's length. -/
theorem countB64enc_false_bytes (n : Nat) : countB64enc false n * 3 / 4 = n := by
  rw [countB64enc_false]; omega

theorem countB64enc_false_le (pad : Bool) (n : Nat) : countB64enc false n ≤ countB64enc pad n := by
  cases pad
  · exact Nat.le_refl _
  · rw [countB64enc_false, countB64enc_true]; omega

/-- Padding begins where the text without padding ends (R66). -/
theorem b64Text_getElem?_padding {pad : Bool} {bs : List Byte} {j : Nat} (hj : countB64enc false bs.length ≤ j)
    (hlt : j < countB64enc pad bs.length) : (b64Text pad bs)[j]? = some PADCH := by
  have hpast : 8 * bs.length ≤ 6 * j := Nat.not_lt.1 fun h => Nat.not_lt.2 hj ((lt_countB64enc_false_iff _ _).2 h)
  have hc := List.getElem?_eq_getElem (b64Text_length pad bs ▸ hlt)
  rw [hc, eq_PADCH_of_b64Text_getElem? hpast hc]

/-- Before it stands the text without padding. -/
theorem b64Text_take (pad : Bool) (bs : List Byte) :
    (b64Text pad bs).take (countB64enc false bs.length) = b64Text false bs := by
  apply List.ext_getElem?
  intro j
  rcases Nat.lt_or_ge j (countB64enc false bs.length) with hj | hj
  · have hfield := (lt_countB64enc_false_iff _ _).1 hj
    rw [List.getElem?_take_of_lt hj, b64Text_getElem?_sextet pad hfield, b64Text_getElem?_sextet false hfield]
  · rw [List.getElem?_take_eq_none hj, List.getElem?_eq_none (b64Text_length false bs ▸ hj)]

/-- No character that carries bits of the source is `=`. -/
theorem b64Text_getElem?_ne_PADCH {pad : Bool} {bs : List Byte} {j : Nat} (hj : j < countB64enc false bs.length) :
    (b64Text pad bs)[j]? ≠ some PADCH := by
  rw [b64Text_getElem?_sextet pad ((lt_countB64enc_false_iff _ _).1 hj)]
  intro h
  have hsym := (symbolOfExactlyTheAlphabet _ _).2 h
  rw [sym_PADCH] at hsym
  cases hsym

/-- The trim takes the padding off a text and nothing else (R70, R74). -/
theorem isTrimmed_b64Text {pad : Bool} {bs : List Byte} {src : List Char16}
    (hsrc : src.take (countB64enc pad bs.length) = b64Text pad bs) :
    IsTrimmed src (countB64enc pad bs.length) (countB64enc false bs.length) := by
  have hle := countB64enc_false_le pad bs.length
  have hat : ∀ j < countB64enc pad bs.length, src[j]? = (b64Text pad bs)[j]? := fun j hj => by
    rw [← hsrc, List.getElem?_take_of_lt hj]
  refine ⟨hle, ?_, fun i hi hlt => (hat i hlt).trans (b64Text_getElem?_padding hi hlt)⟩
  rcases Nat.eq_zero_or_pos (countB64enc false bs.length) with hzero | hpos
  · exact .inl hzero
  · refine .inr ?_
    rw [hat _ (by omega)]
    exact b64Text_getElem?_ne_PADCH (Nat.sub_lt hpos Nat.one_pos)

section Decoding

variable {pad : Bool} {bs : List Byte} {s : State} (hn : s.srcLen.toNat = countB64enc pad bs.length)
  (hsize : countB64enc pad bs.length ≤ s.chars.length)
  (htext : s.chars.take (countB64enc pad bs.length) = b64Text pad bs)
  (hroom : s.dstCap.toNat ≤ s.bytes.length)
include hn hsize htext hroom

/-- A decoder that trims the padding, or finds none, gives the source back (R74). -/
theorem b64dec_decodes_b64Text {trim : Bool} (htrim : trim = true ∨ pad = false) (hcap : bs.length ≤ s.dstCap.toNat) :
    ∃ t, exec (b64decOf trim false) s = .next t ∧ t.resp.ok = true ∧ t.resp.count.toNat = bs.length ∧
      t.bytes.take bs.length = bs := by
  have hL : IsTextLength trim s (countB64enc false bs.length) := by
    cases trim
    case false =>
      obtain rfl : pad = false := htrim.resolve_left Bool.false_ne_true
      exact hn.symm
    case true =>
      have h := isTrimmed_b64Text htext
      rwa [← hn] at h
  have hvalue : b64Value (s.chars.take (countB64enc false bs.length)) = some bs := by
    have htake := congrArg (List.take (countB64enc false bs.length)) htext
    rw [List.take_take, Nat.min_eq_left (countB64enc_false_le pad _), b64Text_take] at htake
    rw [htake, b64Value_b64Text]
  have hexec := exec_b64decOf_of_value hL ((countB64enc_false_bytes _).symm ▸ hcap) (hn ▸ hsize) hroom hvalue
  rw [countB64enc_false_bytes] at hexec
  obtain ⟨hok, -, hcount, -⟩ := ends_afterDecode bs hcap
  exact ⟨_, hexec, hok, hcount, afterDecode_bytes_take rfl⟩

/-- Padding that is not trimmed is no text, and its characters count for `REQ` (R74). -/
theorem b64dec_fails_on_padding (hpadded : pad = true) (hshort : bs.length % 3 ≠ 0) :
    ∃ t, exec (.b64dec false) s = .next t ∧ t.resp.ok = false ∧
      t.resp.cause = if (bs.length + 2) / 3 * 3 ≤ s.dstCap.toNat then 2 else 3 := by
  subst hpadded
  have hL : IsTextLength false s (countB64enc true bs.length) := hn.symm
  have hpad : countB64enc false bs.length < countB64enc true bs.length := by
    rw [countB64enc_true, countB64enc_eq, if_neg Bool.false_ne_true, if_neg hshort]; omega
  have hreq : countB64enc true bs.length * 3 / 4 = (bs.length + 2) / 3 * 3 := by
    rw [countB64enc_true]; omega
  split
  case isTrue hcap =>
    have hc : s.chars[countB64enc false bs.length]? = some PADCH := by
      rw [← List.getElem?_take_of_lt hpad, htext, b64Text_getElem?_padding (Nat.le_refl _) hpad]
    obtain ⟨t, hexec, ⟨hok, hcause, -⟩, -⟩ :=
      b64dec_fails_on_other_text hL (hreq ▸ hcap) (hn ▸ hsize) hroom (.inr ⟨_, _, hpad, hc, sym_PADCH⟩)
    exact ⟨t, hexec, hok, hcause⟩
  case isFalse hcap =>
    exact ⟨_, exec_b64decOf_capacity hL (fun _ => hn ▸ hsize) (hreq ▸ Nat.not_le.1 hcap), rfl, rfl⟩

end Decoding

/-- Settles O36: the destination of the encoder holds the text of the source, whose value less its padding is the source. -/
theorem base64urlRoundTrip : Obligations.Base64urlRoundTrip := by
  intro pad s hsize hroom hcap
  have hfits := (countB64enc_le pad s.srcLen.toNat).trans hcap
  obtain ⟨-, -, hcount, -⟩ := ends_afterEncode (text := b64Text pad) hfits
  rw [exec_b64encInstr]
  refine ⟨_, encodeCommand_ok hcap hsize (hcap.trans hroom), rfl, ?_⟩
  rw [hcount, afterEncode_chars_take (b64Text_source_length pad hsize)]
  intro s' hn hsize' htext hroom'
  have hsource : (s.bytes.take s.srcLen.toNat).length = s.srcLen.toNat := List.length_take_of_le hsize
  generalize s.bytes.take s.srcLen.toNat = bs at hsource htext ⊢
  rw [← hsource] at hn hsize' htext ⊢
  exact ⟨fun _ => b64dec_decodes_b64Text hn hsize' htext hroom', b64dec_fails_on_padding hn hsize' htext hroom'⟩

end Sys2Proof.Certificates
end

section
/-! PROOF. The host operations: what it takes to perform one command, that no allocating decode lacks capacity (O43), and the
round trip of the encoding and the decoding operations (O41). -/

namespace Sys2Proof.Certificates

open Sys2Proof.Machine

/-! ### One command performed -/

/-- `s` with the command `c` and its two buffers at the port: what the host does before it issues (R103 (1)). -/
def presented (c : Command) (bytes : List Byte) (chars : List Char16) (s : State) : State :=
  { s with
    cmd := (c.assemble s.lenBits).1
    srcLen := (c.assemble s.lenBits).2.1
    dstCap := (c.assemble s.lenBits).2.2
    bytes := bytes
    chars := chars }

/-- The state in which the command of an operation runs (R103 (2)). -/
def issued (c : Command) (bytes : List Byte) (chars : List Char16) (s : State) : State :=
  { presented c bytes chars s with busy := true }

theorem wellFormed_iff (lenBits : Nat) (c : Command) :
    c.wellFormed lenBits = true ↔
      c.srcLen < 2 ^ lenBits ∧ c.dstCap < 2 ^ lenBits ∧ (c.instr.null = true → c.srcLen = 0) := by
  have hinstr : c.instr.wellFormed = true := by cases c.instr <;> rfl
  simp [Command.wellFormed, Command.srcLenFits, Command.dstCapFits, Command.nullHasNoLength, hinstr, and_assoc,
    or_iff_not_imp_left]

theorem truthfulFor_iff (i : Instr) (s : State) :
    s.truthfulFor i = true ↔
      (i.null = true ∨ s.srcLen.toNat ≤ s.srcSize i) ∧ s.dstCap.toNat ≤ s.dstSize i := by
  simp [State.truthfulFor]

theorem truthful_of_legal {s : State} {i : Instr} (h : decode s.cmd = .ok i) : s.truthful = s.truthfulFor i := by
  simp [State.truthful, h]

/-- The host issues with no command in progress and with truthful operands only (R96, R97). -/
theorem host_issue_eq_some_iff {s u : State} :
    s.host .issue = some u ↔ s.busy = false ∧ s.truthful = true ∧ u = { s with busy := true } := by
  rw [State.host, Option.ite_none_left_eq_some, Option.some.injEq, eq_comm (a := u)]
  simp [and_assoc]

section Issued

variable {c : Command} {bytes : List Byte} {chars : List Char16} {s t : State}

theorem issued_srcLen_toNat (hwf : c.wellFormed s.lenBits = true) :
    (issued c bytes chars s).srcLen.toNat = c.srcLen := by
  obtain ⟨hsrc, -, -⟩ := (wellFormed_iff _ _).1 hwf
  exact Nat.mod_eq_of_lt hsrc

theorem issued_dstCap_toNat (hwf : c.wellFormed s.lenBits = true) :
    (issued c bytes chars s).dstCap.toNat = c.dstCap := by
  obtain ⟨-, hdst, -⟩ := (wellFormed_iff _ _).1 hwf
  exact Nat.mod_eq_of_lt hdst

/-- The step after the issue is the command. -/
theorem step_of_issued (hreset : s.resetLine = false) :
    step (issued c bytes chars s) = exec c.instr (issued c bytes chars s) :=
  step_of_legal hreset rfl (decode_encode c.instr)

theorem host_issue_presented_iff {u : State} :
    (presented c bytes chars s).host .issue = some u ↔
      s.busy = false ∧ (issued c bytes chars s).truthfulFor c.instr = true ∧ u = issued c bytes chars s := by
  have hdecode : decode (presented c bytes chars s).cmd = .ok c.instr := decode_encode c.instr
  rw [host_issue_eq_some_iff, truthful_of_legal hdecode]
  rfl

/-- An operation starts on an idle block with a command that can be written, and gets the response of the step that follows
the issue. -/
theorem perform_eq_some_iff_step :
    s.perform c bytes chars = some t ↔
      Idle s ∧ c.wellFormed s.lenBits = true ∧
      ∃ u, (presented c bytes chars s).host .issue = some u ∧ step u = .next t := by
  have hguard : ¬ (s.busy || s.resetLine || !c.wellFormed s.lenBits) = true ↔ Idle s ∧ c.wellFormed s.lenBits = true := by
    simp [Idle]
  rw [State.perform, Option.ite_none_left_eq_some, hguard, and_assoc]
  refine and_congr_right fun _ => and_congr_right fun _ => ?_
  change (match (presented c bytes chars s).host .issue with | none => _ | some u => _) = some t ↔ _
  cases (presented c bytes chars s).host .issue with
  | none => simp
  | some u => cases h : step u <;> simp [h]

/-- An operation gets a response exactly when an idle block is given a command that can be written, with truthful operands,
and the response is that of the command. -/
theorem perform_eq_some_iff :
    s.perform c bytes chars = some t ↔
      Idle s ∧ c.wellFormed s.lenBits = true ∧ (issued c bytes chars s).truthfulFor c.instr = true ∧
      exec c.instr (issued c bytes chars s) = .next t := by
  rw [perform_eq_some_iff_step]
  constructor
  · rintro ⟨hidle, hwf, u, hissue, hstep⟩
    obtain ⟨-, htruth, rfl⟩ := host_issue_presented_iff.1 hissue
    exact ⟨hidle, hwf, htruth, (step_of_issued hidle.2).symm.trans hstep⟩
  · rintro ⟨hidle, hwf, htruth, hexec⟩
    exact ⟨hidle, hwf, _, host_issue_presented_iff.2 ⟨hidle.1, htruth, rfl⟩, (step_of_issued hidle.2).trans hexec⟩

end Issued

/-! ### The allocating decodes -/

/-- A command whose capacity reaches its `REQ` does not lack capacity (R82). -/
theorem cause_ne_capacity {i : Instr} {s t : State} (h : exec i s = .next t) (hcap : s.required i ≤ s.dstCap.toNat) :
    t.resp.cause ≠ 3 := by
  rcases exec_next h with ⟨-, rfl⟩ | ⟨-, -, rfl⟩ | ⟨-, hshort, -⟩ | ⟨-, -, -, -, rfl⟩ |
    ⟨-, -, -, -, -, -, -, ⟨out, -, rfl⟩ | ⟨-, rfl⟩⟩
  · exact (by decide : Cause.code .nullInput ≠ Cause.code .capacity)
  · exact (by decide : Cause.code .format ≠ Cause.code .capacity)
  · exact absurd hshort (Nat.not_lt.2 hcap)
  · exact (by decide : Cause.code .none ≠ Cause.code .capacity)
  · exact (by decide : Cause.code .none ≠ Cause.code .capacity)
  · exact (by decide : Cause.code .format ≠ Cause.code .capacity)

theorem perform_cause_ne_capacity {c : Command} {bytes : List Byte} {chars : List Char16} {s t : State}
    (h : s.perform c bytes chars = some t)
    (hcap : c.wellFormed s.lenBits = true → (issued c bytes chars s).required c.instr ≤ c.dstCap) :
    t.resp.cause ≠ 3 := by
  obtain ⟨-, hwf, -, hexec⟩ := perform_eq_some_iff.1 h
  exact cause_ne_capacity hexec ((hcap hwf).trans_eq (issued_dstCap_toNat hwf).symm)

/-- Trimming a text does not raise its `REQ`. -/
theorem reqB64dec_trimLen_le (src : List Char16) (L : Nat) : reqB64dec (trimLen src L) ≤ reqB64dec L :=
  Nat.div_le_div_right (Nat.mul_le_mul_right 3 (trimLen_le src L))

/-- Settles O43: the destination an operation allocates has `REQ` elements, of the untrimmed length where the command trims. -/
theorem allocatingDecodesNeverLackCapacity : Obligations.AllocatingDecodesNeverLackCapacity := by
  intro input s t
  refine ⟨fun h => perform_cause_ne_capacity h fun hwf => ?_, fun h => perform_cause_ne_capacity h fun hwf => ?_⟩
  · exact (congrArg reqB16dec (issued_srcLen_toNat hwf)).le
  · exact (reqB64dec_trimLen_le _ _).trans_eq (congrArg reqB64dec (issued_srcLen_toNat hwf))

/-! ### The results of an encoder and of a decoder that succeed -/

theorem null_of_encoder {i : Instr} (hi : i.isDecoder = false) : i.null = false := by
  cases i with
  | b16encL | b16encU | b64enc | b64encP => rfl
  | b16dec _ | b64dec _ | b64decT _ => cases hi

theorem truthfulFor_encoder_iff {i : Instr} (hi : i.isDecoder = false) (s : State) :
    s.truthfulFor i = true ↔ s.srcLen.toNat ≤ s.bytes.length ∧ s.dstCap.toNat ≤ s.chars.length := by
  simp [truthfulFor_iff, State.srcSize, State.dstSize, hi, null_of_encoder hi]

theorem truthfulFor_decoder_iff {i : Instr} (hi : i.isDecoder = true) (hnull : i.null = false) (s : State) :
    s.truthfulFor i = true ↔ s.srcLen.toNat ≤ s.chars.length ∧ s.dstCap.toNat ≤ s.bytes.length := by
  simp [truthfulFor_iff, State.srcSize, State.dstSize, hi, hnull]

section Succeeding

variable {i : Instr} {s : State} (htruth : s.truthfulFor i = true)
include htruth

/-- An encoder with room for `REQ` succeeds with the text of its source (R103 (4)). -/
theorem exec_encoded (hi : i.isDecoder = false) (hcap : s.required i ≤ s.dstCap.toNat) :
    ∃ t, exec i s = .next t ∧ t.encoded = some (textOf i (s.bytes.take s.srcLen.toNat)) := by
  obtain ⟨hsize, hroom⟩ := (truthfulFor_encoder_iff hi s).1 htruth
  refine ⟨_, (exec_encoder hi s).trans (encodeCommand_ok hcap hsize (hcap.trans hroom)), ?_⟩
  obtain ⟨hok, -, hcount, -⟩ := ends_afterEncode (text := textOf i) ((count_le_required hi s).trans hcap)
  rw [State.encoded, if_pos hok, hcount, afterEncode_chars_take (textOf_source_length hi hsize)]

/-- A decoder with its input present and room for the value of its text succeeds with that value (R103 (4), R111). -/
theorem exec_raising (hi : i.isDecoder = true) (hnull : i.null = false) {out : List Byte}
    (hcap : out.length ≤ s.dstCap.toNat) (hv : valueOf i (s.chars.take (s.sourceLength i)) = some out) :
    ∃ t, exec i s = .next t ∧ t.raising = .inr out := by
  obtain ⟨hsize, hroom⟩ := (truthfulFor_decoder_iff hi hnull s).1 htruth
  have htext := (sourceLength_le_srcLen i s).trans hsize
  have hlen := value_length htext hv
  have heven : i = .b16dec false → s.srcLen.toNat % 2 = 0 := by
    rintro rfl
    have hpairs : (s.chars.take s.srcLen.toNat).length = 2 * out.length := hexValue_length hv
    rw [List.length_take_of_le hsize] at hpairs
    omega
  rw [hlen] at hcap
  refine ⟨_, (exec_decoder hi hnull heven fun _ => hsize).trans (decodePass_ok hcap htext (hcap.trans hroom) hv), ?_⟩
  obtain ⟨hok, -, hcount, -⟩ := ends_afterDecode out hcap
  rw [State.raising, if_pos hok, hcount, afterDecode_bytes_take hlen]

end Succeeding

/-! ### The encoding and the decoding operations -/

section Operations

variable {i : Instr} {cap : Nat} {s : State} (hidle : Idle s) (hdst : cap < 2 ^ s.lenBits)
include hidle hdst

/-- An encoding operation whose destination has `REQ` characters returns the text of its bytes. -/
theorem perform_encoded (hi : i.isDecoder = false) {bs : List Byte} (hsrc : bs.length < 2 ^ s.lenBits)
    (hcap : ∀ e : State, e.srcLen.toNat = bs.length → e.required i = cap) :
    (s.perform ⟨i, bs.length, cap⟩ bs (freshChars cap)).map State.encoded = some (some (textOf i bs)) := by
  have hwf : Command.wellFormed s.lenBits ⟨i, bs.length, cap⟩ = true :=
    (wellFormed_iff _ _).2 ⟨hsrc, hdst, fun hnull => by simp [null_of_encoder hi] at hnull⟩
  have hn := issued_srcLen_toNat (bytes := bs) (chars := freshChars cap) hwf
  have hd := issued_dstCap_toNat (bytes := bs) (chars := freshChars cap) hwf
  have htruth : (issued ⟨i, bs.length, cap⟩ bs (freshChars cap) s).truthfulFor i = true :=
    (truthfulFor_encoder_iff hi _).2 ⟨hn.le, hd.le.trans_eq List.length_replicate.symm⟩
  obtain ⟨t, hexec, hresult⟩ := exec_encoded htruth hi ((hcap _ hn).trans hd.symm).le
  rw [perform_eq_some_iff.2 ⟨hidle, hwf, htruth, hexec⟩, Option.map_some, hresult, hn]
  exact congrArg (fun src => some (some (textOf i src))) List.take_length

/-- A decoding operation whose input has a value, whatever else the state of the block, and whose destination has room for
it returns that value. -/
theorem perform_raising (hi : i.isDecoder = true) (hnull : i.null = false) {cs : List Char16} {out : List Byte}
    (hsrc : cs.length < 2 ^ s.lenBits) (hcap : out.length ≤ cap)
    (hv : ∀ e : State, e.srcLen.toNat = cs.length → e.chars = cs → valueOf i (cs.take (e.sourceLength i)) = some out) :
    (s.perform ⟨i, cs.length, cap⟩ (freshBytes cap) cs).map State.raising = some (.inr out) := by
  have hwf : Command.wellFormed s.lenBits ⟨i, cs.length, cap⟩ = true :=
    (wellFormed_iff _ _).2 ⟨hsrc, hdst, fun h => by simp [hnull] at h⟩
  have hn := issued_srcLen_toNat (bytes := freshBytes cap) (chars := cs) hwf
  have hd := issued_dstCap_toNat (bytes := freshBytes cap) (chars := cs) hwf
  have htruth : (issued ⟨i, cs.length, cap⟩ (freshBytes cap) cs s).truthfulFor i = true :=
    (truthfulFor_decoder_iff hi hnull _).2 ⟨hn.le, hd.le.trans_eq List.length_replicate.symm⟩
  obtain ⟨t, hexec, hresult⟩ := exec_raising htruth hi hnull (hcap.trans_eq hd.symm) (hv _ hn rfl)
  rw [perform_eq_some_iff.2 ⟨hidle, hwf, htruth, hexec⟩, Option.map_some, hresult]

end Operations

section PublicOperations

variable {s : State} (hidle : Idle s)
include hidle

theorem base16Encode_eq (u : Bool) {bs : List Byte} (h : 2 * bs.length < 2 ^ s.lenBits) :
    base16Encode bs u s = some (some (hexText u bs)) := by
  have hsrc : bs.length < 2 ^ s.lenBits := by omega
  cases u
  · exact perform_encoded (i := .b16encL) hidle h rfl hsrc fun _ hn => congrArg reqB16enc hn
  · exact perform_encoded (i := .b16encU) hidle h rfl hsrc fun _ hn => congrArg reqB16enc hn

theorem base64urlEncode_eq (p : Bool) {bs : List Byte} (h : (bs.length + 2) / 3 * 4 < 2 ^ s.lenBits) :
    base64urlEncode bs p s = some (some (b64Text p bs)) := by
  have hsrc : bs.length < 2 ^ s.lenBits := by omega
  cases p
  · exact perform_encoded (i := .b64enc) hidle h rfl hsrc fun _ hn => congrArg reqB64enc hn
  · exact perform_encoded (i := .b64encP) hidle h rfl hsrc fun _ hn => congrArg reqB64enc hn

theorem base16Decode_of_value {cs : List Char16} {out : List Byte} (h : cs.length < 2 ^ s.lenBits)
    (hv : hexValue cs = some out) : base16Decode (some cs) s = some (.inr out) := by
  have hlen := hexValue_length hv
  refine perform_raising (i := .b16dec false) (cs := cs) (cap := cs.length / 2) hidle (by omega) rfl rfl h (by omega) ?_
  intro e hn _
  change hexValue (cs.take e.srcLen.toNat) = some out
  rw [hn, List.take_length, hv]

/-- The destination is allocated for the untrimmed text, so the bytes of the trimmed one fit (R110 (c)). -/
theorem base64urlDecode_of_value {cs : List Char16} {out : List Byte} (h : cs.length < 2 ^ s.lenBits)
    (hv : b64Value (cs.take (trimLen cs cs.length)) = some out) : base64urlDecode (some cs) s = some (.inr out) := by
  have htrim := trimLen_le cs cs.length
  obtain ⟨-, hlen⟩ := b64Value_length hv
  rw [List.length_take_of_le htrim] at hlen
  have hcap := hlen.le.trans (reqB64dec_trimLen_le cs cs.length)
  refine perform_raising (i := .b64decT false) (cs := cs) (cap := cs.length * 3 / 4) hidle (by omega) rfl rfl h hcap ?_
  intro e hn hc
  change b64Value (cs.take (trimLen e.chars e.srcLen.toNat)) = some out
  rw [hc, hn, hv]

end PublicOperations

/-- What a base64url encoding operation returns has the bytes for its value once it is trimmed (R74). -/
theorem b64Value_trimmed_b64Text (pad : Bool) (bs : List Byte) :
    b64Value ((b64Text pad bs).take (trimLen (b64Text pad bs) (b64Text pad bs).length)) = some bs := by
  have htrim := isTrimmed_b64Text (List.take_of_length_le (b64Text_length pad bs).le)
  rw [b64Text_length, ← htrim.eq_trimLen, b64Text_take, b64Value_b64Text]

/-- Settles O41: an encoding operation returns the text of the bytes, and a decoding operation the value of the text. -/
theorem hostOperationsRoundTrip : Obligations.HostOperationsRoundTrip := by
  intro b s s' hidle hidle'
  constructor
  · intro u hs hs'
    have hlen : (hexText u b).length = 2 * b.length := hexText_length u b
    exact ⟨hexText u b, base16Encode_eq hidle u hs, hlen,
      base16Decode_of_value hidle' (hlen.trans_lt hs') (hexValue_hexText u b)⟩
  · intro p hs hs'
    have hlen := b64Text_length p b
    exact ⟨b64Text p b, base64urlEncode_eq hidle p hs, hlen.trans (countB64enc_eq p b.length),
      base64urlDecode_of_value hidle' (hlen.trans_lt ((countB64enc_le p b.length).trans_lt hs'))
        (b64Value_trimmed_b64Text p b)⟩

end Sys2Proof.Certificates
end

section
/-! PROOF. The cause a command answers with (O20, O21, O22), what a failure leaves alone (O23), that every command with
truthful operands ends (O27) and so no step of the block stops (O45, O31), and the two steps that look at no buffer (O2, O3). -/

namespace Sys2Proof.Certificates

open Sys2Proof.Machine Sys2Proof.Safety

/-! ### The answer of a command and its cause -/

/-- The command goes on, its response has the given cause, and `RESP.OK` is 1 exactly when that is `NONE` (R80). -/
def AnswersWith (cause : BitVec 3) (a : Answer) : Prop :=
  ∃ t, a = .next t ∧ t.resp.cause = cause ∧ t.resp.ok = (cause == 0)

/-- The four codes of a failure (R79). -/
theorem failure_code {c : Cause} (hc : c ≠ .none) : c.code = 1 ∨ c.code = 2 ∨ c.code = 3 ∨ c.code = 4 := by
  cases c with
  | none => exact absurd rfl hc
  | nullInput | format | capacity | illegal => decide

theorem code_ne_zero {c : Cause} (hc : c ≠ .none) : c.code ≠ 0 := by
  rcases failure_code hc with h | h | h | h <;> rw [h] <;> decide

theorem answersWith_raise {c : Cause} (hc : c ≠ .none) (s : State) : AnswersWith c.code (.next (s.raise c)) :=
  ⟨_, rfl, rfl, (beq_false_of_ne (code_ne_zero hc)).symm⟩

/-- An encoder with truthful operands lacks capacity or succeeds (R85). -/
theorem encodeCommand_answersWith {req count : Nat} {text : List Byte → List Char16} {s : State}
    (hsize : s.srcLen.toNat ≤ s.bytes.length) (hroom : s.dstCap.toNat ≤ s.chars.length) :
    AnswersWith (if s.dstCap.toNat < req then 3 else 0) (encodeCommand req count text s) := by
  split
  · next hshort => rw [encodeCommand_capacity hshort]; exact answersWith_raise (by decide) s
  · next hfits =>
    have hcap := Nat.not_lt.1 hfits
    exact ⟨_, encodeCommand_ok hcap hsize (hcap.trans hroom), rfl, rfl⟩

/-- A decoder's pass within its buffers lacks capacity, succeeds with the value of its text, or finds none (R85). -/
theorem decodePass_answersWith {L req : Nat} {value : List Char16 → Option (List Byte)} {s : State}
    (hsize : L ≤ s.chars.length) (hroom : s.dstCap.toNat ≤ s.bytes.length) :
    AnswersWith (if s.dstCap.toNat < req then 3 else if (value (s.chars.take L)).isSome then 0 else 2)
      (decodePass L req value s) := by
  split
  · next hshort => rw [decodePass_capacity hshort]; exact answersWith_raise (by decide) s
  · next hfits =>
    have hcap := Nat.not_lt.1 hfits
    cases hv : value (s.chars.take L) with
    | some out => exact ⟨_, decodePass_ok hcap hsize (hcap.trans hroom) hv, rfl, rfl⟩
    | none => exact ⟨_, decodePass_format hcap hsize (hcap.trans hroom) hv, rfl, rfl⟩

/-! ### The first cause that applies -/

theorem reqOf_eq_required (i : Instr) (s : State) : reqOf i s = s.required i := by cases i <;> rfl

theorem hexValue_isSome_of_even {cs : List Char16} (h : cs.length % 2 = 0) :
    (hexValue cs).isSome = cs.all fun c => (nib c).isSome := by
  rw [Bool.eq_iff_iff, hexValue_isSome, List.all_eq_true, and_iff_right h]

theorem b64Value_isSome_of_length {cs : List Char16} (h : cs.length % 4 ≠ 1) :
    (b64Value cs).isSome = cs.all fun c => (sym c).isSome := by
  rw [Bool.eq_iff_iff, b64Value_isSome, List.all_eq_true, and_iff_right h]

/-- The two `FORMAT` conditions of a base64url text are that it has no value (R82). -/
theorem b64Value_format {cs : List Char16} {L : Nat} (hl : cs.length = L) :
    (if L % 4 = 1 then 2 else if cs.all fun c => (sym c).isSome then 0 else 2 : BitVec 3) =
      if (b64Value cs).isSome then 0 else 2 := by
  subst hl
  split
  · next h => rw [b64Value_eq_none_of_length h]; rfl
  · next h => rw [b64Value_isSome_of_length h]

theorem firstCause_encoder {i : Instr} (hi : i.isDecoder = false) (s : State) :
    firstCause i s = if s.dstCap.toNat < s.required i then 3 else 0 := by
  cases i with
  | b16encL | b16encU | b64enc | b64encP => rfl
  | b16dec _ | b64dec _ | b64decT _ => cases hi

theorem firstCause_null {i : Instr} (hnull : i.null = true) (s : State) : firstCause i s = 1 := by
  cases i with
  | b16encL | b16encU | b64enc | b64encP => cases hnull
  | b16dec null | b64dec null | b64decT null => exact if_pos hnull

theorem firstCause_odd {s : State} (hodd : s.srcLen.toNat % 2 = 1) : firstCause (.b16dec false) s = 2 := if_pos hodd

/-- With its input present and of a length it can decode, a decoder checks its capacity, then its text. -/
theorem firstCause_decoder {i : Instr} (hi : i.isDecoder = true) (hnull : i.null = false) {s : State}
    (heven : i = .b16dec false → s.srcLen.toNat % 2 = 0) (hsize : s.srcLen.toNat ≤ s.chars.length) :
    firstCause i s =
      if s.dstCap.toNat < s.required i then 3
      else if (valueOf i (s.chars.take (s.sourceLength i))).isSome then 0 else 2 := by
  have hl : (s.chars.take (s.sourceLength i)).length = s.sourceLength i :=
    List.length_take_of_le ((sourceLength_le_srcLen i s).trans hsize)
  cases i with
  | b16encL | b16encU | b64enc | b64encP => cases hi
  | b16dec null =>
    obtain rfl : null = false := hnull
    have heven := heven rfl
    have hodd : ¬ s.srcLen.toNat % 2 = 1 := by omega
    change _ = if _ then _ else if (hexValue (s.chars.take s.srcLen.toNat)).isSome then _ else _
    rw [hexValue_isSome_of_even (by rw [List.length_take_of_le hsize, heven])]
    exact if_neg hodd
  | b64dec null =>
    obtain rfl : null = false := hnull
    exact congrArg (ite _ 3) (b64Value_format hl)
  | b64decT null =>
    obtain rfl : null = false := hnull
    exact congrArg (ite _ 3) (b64Value_format hl)

/-- A command with truthful operands answers with the first cause that applies (R85). -/
theorem exec_answersWith_firstCause {i : Instr} {s : State} (htruth : s.truthfulFor i = true) :
    AnswersWith (firstCause i s) (exec i s) := by
  cases hi : i.isDecoder
  case false =>
    obtain ⟨hsize, hroom⟩ := (truthfulFor_encoder_iff hi s).1 htruth
    rw [firstCause_encoder hi, exec_encoder hi]
    exact encodeCommand_answersWith hsize hroom
  case true =>
    cases hnull : i.null
    case true =>
      rw [firstCause_null hnull, exec_null hnull]
      exact answersWith_raise (by decide) s
    case false =>
      obtain ⟨hsize, hroom⟩ := (truthfulFor_decoder_iff hi hnull s).1 htruth
      by_cases hodd : i = .b16dec false ∧ s.srcLen.toNat % 2 = 1
      · obtain ⟨rfl, hodd⟩ := hodd
        rw [firstCause_odd hodd, show exec (.b16dec false) s = _ from execB16dec_odd hodd]
        exact answersWith_raise (by decide) s
      · have heven : i = .b16dec false → s.srcLen.toNat % 2 = 0 := fun h =>
          (Nat.mod_two_eq_zero_or_one _).resolve_right fun ho => hodd ⟨h, ho⟩
        rw [firstCause_decoder hi hnull heven hsize, exec_decoder hi hnull heven fun _ => hsize]
        exact decodePass_answersWith ((sourceLength_le_srcLen i s).trans hsize) hroom

/-! ### No step stops -/

theorem exec_goes {i : Instr} {s : State} (htruth : s.truthfulFor i = true) : ∃ t, exec i s = .next t := by
  obtain ⟨t, ht, -⟩ := exec_answersWith_firstCause htruth
  exact ⟨t, ht⟩

/-- Only a command in progress can stop, and not with truthful operands. -/
theorem step_goes {s : State} (h : s.busy = true → s.truthful = true) : Goes s := by
  cases hreset : s.resetLine
  case true => exact ⟨_, step_of_reset hreset⟩
  case false =>
    cases hbusy : s.busy
    case false => exact ⟨_, step_of_idle hreset hbusy⟩
    case true =>
      cases hdecode : decode s.cmd with
      | error e => exact ⟨_, step_of_illegal hreset hbusy hdecode⟩
      | ok i =>
        rw [Goes, step_of_legal hreset hbusy hdecode]
        exact exec_goes ((truthful_of_legal hdecode).symm.trans (h hbusy))

/-- Settles O45: the invariant has the operands of a command in progress truthful. -/
theorem invariantStatesNeverStop : Obligations.InvariantStatesNeverStop :=
  fun _ ⟨_, htruth⟩ => step_goes htruth

/-- A move of the host leaves the response alone, and only an issue, which tests the operands, starts a command. -/
theorem inv_host {a : HostAction} {s t : State} (hinv : Inv s) (h : s.host a = some t) : Inv t := by
  obtain ⟨hresp, htruth⟩ := hinv
  cases a with
  | presentBytes _ | presentChars _ | writeCmd _ =>
    obtain ⟨hbusy, ht⟩ := Option.ite_none_left_eq_some.1 h
    obtain rfl := Option.some.inj ht
    exact inv_of_not_busy hresp (Bool.eq_false_iff.2 hbusy)
  | writeSrcLen _ | writeDstCap _ =>
    obtain ⟨hguard, ht⟩ := Option.ite_none_left_eq_some.1 h
    obtain rfl := Option.some.inj ht
    exact inv_of_not_busy hresp (Bool.eq_false_iff.2 fun hbusy => hguard (by rw [hbusy, Bool.true_or]))
  | issue =>
    obtain ⟨-, hissue, rfl⟩ := host_issue_eq_some_iff.1 h
    exact ⟨hresp, fun _ => hissue⟩
  | reset =>
    obtain rfl := Option.some.inj h
    exact ⟨hresp, htruth⟩

theorem inv_of_reachable {s : State} (h : Reachable s) : Inv s := by
  induction h with
  | reset lenBits => exact inv_resetAt lenBits
  | step _ e ih => exact stepKeepsTheInvariant _ _ ih e
  | host a _ e ih => exact inv_host ih e

/-- Settles O31: the invariant holds along every run. -/
theorem reachableStatesNeverStop : Obligations.ReachableStatesNeverStop :=
  fun s h => ⟨inv_of_reachable h, invariantStatesNeverStop s (inv_of_reachable h)⟩

/-- Settles O22: the first cause of a legal word, and `ILLEGAL` for every other. -/
theorem firstCauseIsReported : Obligations.FirstCauseIsReported :=
  ⟨fun _ _ htruth => exec_answersWith_firstCause htruth,
    fun _ _ hreset hbusy hdecode => ⟨_, step_of_illegal hreset hbusy hdecode, rfl, rfl⟩⟩

/-! ### The response of a command that goes on -/

/-- The responses a command can have: each cause only where its command can have it (R79). -/
theorem exec_response {i : Instr} {s t : State} (h : exec i s = .next t) :
    (i.null = true ∧ t.resp = Resp.failure .nullInput) ∨
    (i.isDecoder = true ∧ i.null = false ∧ t.resp = Resp.failure .format) ∨
    (i.null = false ∧ t.resp = Resp.failure .capacity) ∨
    (i.null = false ∧ ∃ n, t.resp = Resp.success n) := by
  rcases exec_next h with ⟨hnull, rfl⟩ | ⟨rfl, -, rfl⟩ | ⟨hnull, -, rfl⟩ | ⟨hi, -, -, -, rfl⟩ |
    ⟨hi, hnull, -, -, -, -, -, ⟨out, -, rfl⟩ | ⟨-, rfl⟩⟩
  · exact .inl ⟨hnull, rfl⟩
  · exact .inr (.inl ⟨rfl, rfl, rfl⟩)
  · exact .inr (.inr (.inl ⟨hnull, rfl⟩))
  · exact .inr (.inr (.inr ⟨null_of_encoder hi, _, rfl⟩))
  · exact .inr (.inr (.inr ⟨hnull, _, rfl⟩))
  · exact .inr (.inl ⟨hi, hnull, rfl⟩)

theorem isDecoder_of_null {i : Instr} (hnull : i.null = true) : i.isDecoder = true := by
  cases hi : i.isDecoder
  · exact (null_of_encoder hi).symm.trans hnull
  · rfl

theorem cause_eq_nullInput_iff {i : Instr} {s t : State} (h : exec i s = .next t) :
    t.resp.cause = 1 ↔ i.null = true := by
  rcases exec_response h with ⟨hnull, hr⟩ | ⟨-, hnull, hr⟩ | ⟨hnull, hr⟩ | ⟨hnull, n, hr⟩ <;> rw [hr, hnull]
  · exact iff_of_true rfl rfl
  · exact iff_of_false (by decide : Cause.code .format ≠ Cause.code .nullInput) Bool.false_ne_true
  · exact iff_of_false (by decide : Cause.code .capacity ≠ Cause.code .nullInput) Bool.false_ne_true
  · exact iff_of_false (by decide : Cause.code .none ≠ Cause.code .nullInput) Bool.false_ne_true

/-- Settles O20: with the bit set a decoder looks at nothing else, and only then is the cause `NULL_INPUT`. -/
theorem nullInputExactlyWhenAbsent : Obligations.NullInputExactlyWhenAbsent :=
  fun _ s => ⟨fun hnull => ⟨isDecoder_of_null hnull, exec_null hnull s⟩, fun _ h => cause_eq_nullInput_iff h⟩

theorem cause_eq_none_iff_of_failure {c : Cause} (hc : c ≠ .none) {t : State} (hr : t.resp = Resp.failure c) :
    t.resp.cause = 0 ↔ t.resp.ok = true := by
  rw [hr]
  exact iff_of_false (code_ne_zero hc) Bool.false_ne_true

theorem cause_eq_none_iff {i : Instr} {s t : State} (h : exec i s = .next t) :
    t.resp.cause = 0 ↔ t.resp.ok = true := by
  rcases exec_fails_or_succeeds h with ⟨c, hc, hr⟩ | ht
  · exact cause_eq_none_iff_of_failure hc hr
  · exact iff_of_true ht.cause ht.ok

/-- Settles O21, by the responses of a legal command; an illegal word has one. -/
theorem causesOfEachCommand : Obligations.CausesOfEachCommand := by
  intro s t hreset hbusy h
  cases hdecode : decode s.cmd with
  | error e =>
    rw [step_of_illegal hreset hbusy hdecode] at h
    cases h
    exact ⟨cause_eq_none_iff_of_failure (c := .illegal) (by decide) rfl, rfl⟩
  | ok i =>
    rw [step_of_legal hreset hbusy hdecode] at h
    refine ⟨cause_eq_none_iff h, ?_⟩
    rcases exec_response h with ⟨hnull, hr⟩ | ⟨hi, -, hr⟩ | ⟨-, hr⟩ | ⟨-, n, hr⟩ <;> rw [hr]
    · exact .inr (.inr ⟨isDecoder_of_null hnull, .inl rfl⟩)
    · exact .inr (.inr ⟨hi, .inr rfl⟩)
    · exact .inr (.inl rfl)
    · exact .inl rfl

/-! ### The end of a command -/

/-- The block is ready, and its response is a success or a failure (R75 to R77). -/
def Ended (t : State) : Prop :=
  t.busy = false ∧
    ((t.resp.ok = true ∧ t.resp.cause = 0) ∨
     (t.resp.ok = false ∧ t.resp.count = 0 ∧
       (t.resp.cause = 1 ∨ t.resp.cause = 2 ∨ t.resp.cause = 3 ∨ t.resp.cause = 4)))

theorem ended_of_failure {c : Cause} (hc : c ≠ .none) {t : State} (hbusy : t.busy = false)
    (hr : t.resp = Resp.failure c) : Ended t := by
  refine ⟨hbusy, .inr ?_⟩
  rw [hr]
  exact ⟨rfl, rfl, failure_code hc⟩

theorem ended_of_exec {i : Instr} {s t : State} (h : exec i s = .next t) : Ended t := by
  obtain ⟨-, hbusy, -⟩ := noCommandWritesItsOperands i s t h
  rcases exec_fails_or_succeeds h with ⟨c, hc, hr⟩ | ht
  · exact ended_of_failure hc hbusy hr
  · exact ⟨hbusy, .inl ⟨ht.ok, ht.cause⟩⟩

/-- Settles O27: the step goes on, and what it goes on to is the end of the command. -/
theorem everyIssuedCommandEnds : Obligations.EveryIssuedCommandEnds := by
  intro s hreset hbusy htruth
  obtain ⟨t, ht⟩ := step_goes fun _ => htruth
  refine ⟨t, ht, ?_⟩
  cases hdecode : decode s.cmd with
  | error e =>
    rw [step_of_illegal hreset hbusy hdecode] at ht
    cases ht
    exact ended_of_failure (c := .illegal) (by decide) rfl rfl
  | ok i =>
    rw [step_of_legal hreset hbusy hdecode] at ht
    exact ended_of_exec ht

/-! ### What a failure leaves alone -/

/-- A command that fails writes nothing but its response, or is a decoder whose pass found no value (R86). -/
theorem exec_failed {i : Instr} {s t : State} (h : exec i s = .next t) (hok : t.resp.ok = false) :
    (∃ c, t = s.raise c) ∨
    (i.isDecoder = true ∧ (i = .b16dec false → s.srcLen.toNat % 2 = 0) ∧ t = s.afterSpoil (s.required i)) := by
  rcases exec_next h with ⟨-, rfl⟩ | ⟨-, -, rfl⟩ | ⟨-, -, rfl⟩ | ⟨-, -, -, -, rfl⟩ |
    ⟨hi, -, heven, -, -, -, -, ⟨out, -, rfl⟩ | ⟨-, rfl⟩⟩
  · exact .inl ⟨.nullInput, rfl⟩
  · exact .inl ⟨.format, rfl⟩
  · exact .inl ⟨.capacity, rfl⟩
  · cases hok
  · cases hok
  · exact .inr ⟨hi, heven, rfl⟩

theorem bytesKeptFrom_of_bytes_eq {s t : State} (h : t.bytes = s.bytes) (n : Nat) : BytesKeptFrom n s t :=
  ⟨congrArg List.length h, fun _ _ => by rw [h]⟩

/-- Settles O23: a response alone leaves both buffers as they were, and a pass without a value spoils below `REQ` only. -/
theorem failureLeavesTheRestAlone : Obligations.FailureLeavesTheRestAlone := by
  intro s t hreset hbusy h hok
  cases hdecode : decode s.cmd with
  | error e =>
    rw [step_of_illegal hreset hbusy hdecode] at h
    cases h
    exact ⟨rfl, rfl, fun _ => rfl, fun i hi => by cases hi⟩
  | ok i =>
    rw [step_of_legal hreset hbusy hdecode] at h
    rcases exec_failed h hok with ⟨c, rfl⟩ | ⟨hi, heven, rfl⟩
    · exact ⟨rfl, rfl, fun _ => rfl, fun _ _ => ⟨fun _ => rfl, fun _ _ => rfl, bytesKeptFrom_of_bytes_eq rfl _⟩⟩
    · refine ⟨rfl, rfl, fun hcause => absurd rfl hcause, fun j hj => ?_⟩
      obtain rfl : i = j := Except.ok.inj hj
      refine ⟨fun henc => ?_, fun hdec hodd => ?_, ?_⟩
      · exact absurd (henc.symm.trans hi) Bool.false_ne_true
      · exact absurd ((heven hdec).symm.trans hodd) Nat.zero_ne_one
      · rw [reqOf_eq_required]
        exact bytesKeptFrom_afterSpoil _ s

/-! ### The steps that look at no buffer -/

/-- Settles O2, by the case of the step in which nothing is in progress. -/
theorem waitingKeepsAllState : Obligations.WaitingKeepsAllState :=
  fun _ ⟨hbusy, hreset⟩ => step_of_idle hreset hbusy

/-- Settles O3: a word that is in no row of the table does not decode. -/
theorem illegalWordAnswersIllegal : Obligations.IllegalWordAnswersIllegal := by
  intro s hreset hbusy hword
  cases hdecode : decode s.cmd with
  | error e => exact step_of_illegal hreset hbusy hdecode
  | ok i => exact absurd (List.mem_map_of_mem ((exactlyTenWordsAreLegal _ i).1 hdecode)) hword

end Sys2Proof.Certificates
end

section
/-! PROOF. The errors of the raising decoding operations (O42). -/

namespace Sys2Proof.Certificates

open Sys2Proof.Machine

/-- The error a raising form raises when its command `i` fails (R90). -/
def errorOf (i : Instr) : HostError := if i.null then .nullInputError else .formatError

/-- A decoder that has no input or no value for its text does not succeed. -/
theorem not_ok_of_no_value {i : Instr} {s t : State} (h : exec i s = .next t) (hi : i.isDecoder = true)
    (hbad : i.null = true ∨ valueOf i (s.chars.take (s.sourceLength i)) = none) : t.resp.ok = false := by
  rcases exec_next h with ⟨-, rfl⟩ | ⟨-, -, rfl⟩ | ⟨-, -, rfl⟩ | ⟨henc, -⟩ |
    ⟨-, hnull, -, -, -, -, -, ⟨out, hv, rfl⟩ | ⟨-, rfl⟩⟩
  · rfl
  · rfl
  · rfl
  · exact absurd (henc.symm.trans hi) Bool.false_ne_true
  · simp [hnull, hv] at hbad
  · rfl

/-- Of the causes of a failure only `NULL_INPUT` is no `FormatError` (R90). -/
theorem raising_of_not_ok {i : Instr} {s t : State} (h : exec i s = .next t) (hok : t.resp.ok = false) :
    t.raising = .inl (errorOf i) := by
  have hcause : t.resp.cause = Cause.code .nullInput ↔ i.null = true := cause_eq_nullInput_iff h
  simp only [State.raising, hok, hcause, errorOf]
  cases i.null <;> rfl

section Raising

variable {s : State} (hidle : Idle s)
include hidle

/-- A decoding operation whose input is absent, or has no value whatever else the state of the block, raises the error. -/
theorem perform_raising_error {i : Instr} {cap : Nat} {cs : List Char16} (hdst : cap < 2 ^ s.lenBits)
    (hi : i.isDecoder = true) (hsrc : cs.length < 2 ^ s.lenBits) (habsent : i.null = true → cs.length = 0)
    (hbad : i.null = true ∨ ∀ e : State, e.srcLen.toNat = cs.length → e.chars = cs →
      valueOf i (cs.take (e.sourceLength i)) = none) :
    (s.perform ⟨i, cs.length, cap⟩ (freshBytes cap) cs).map State.raising = some (.inl (errorOf i)) := by
  have hwf : Command.wellFormed s.lenBits ⟨i, cs.length, cap⟩ = true := (wellFormed_iff _ _).2 ⟨hsrc, hdst, habsent⟩
  have hn := issued_srcLen_toNat (bytes := freshBytes cap) (chars := cs) hwf
  have hd := issued_dstCap_toNat (bytes := freshBytes cap) (chars := cs) hwf
  have htruth : (issued ⟨i, cs.length, cap⟩ (freshBytes cap) cs s).truthfulFor i = true := by
    rw [truthfulFor_iff, State.srcSize, State.dstSize, hi]
    exact ⟨.inr hn.le, hd.le.trans_eq List.length_replicate.symm⟩
  obtain ⟨t, hexec⟩ := exec_goes htruth
  have hok := not_ok_of_no_value hexec hi (hbad.imp_right fun hv => hv _ hn rfl)
  rw [perform_eq_some_iff.2 ⟨hidle, hwf, htruth, hexec⟩, Option.map_some, raising_of_not_ok hexec hok]

theorem base16Decode_none : base16Decode none s = some (.inl .nullInputError) :=
  perform_raising_error (i := .b16dec true) (cs := []) hidle (Nat.two_pow_pos _) rfl (Nat.two_pow_pos _) (fun _ => rfl)
    (.inl rfl)

theorem base64urlDecode_none : base64urlDecode none s = some (.inl .nullInputError) :=
  perform_raising_error (i := .b64decT true) (cs := []) hidle (Nat.two_pow_pos _) rfl (Nat.two_pow_pos _) (fun _ => rfl)
    (.inl rfl)

theorem base16Decode_of_no_value {cs : List Char16} (h : cs.length < 2 ^ s.lenBits) (hv : hexValue cs = none) :
    base16Decode (some cs) s = some (.inl .formatError) := by
  refine perform_raising_error (i := .b16dec false) (cs := cs) (cap := cs.length / 2) hidle (by omega) rfl h
    (fun hnull => by cases hnull) (.inr fun e hn _ => ?_)
  change hexValue (cs.take e.srcLen.toNat) = none
  rw [hn, List.take_length, hv]

theorem base64urlDecode_of_no_value {cs : List Char16} (h : cs.length < 2 ^ s.lenBits)
    (hv : b64Value (cs.take (trimLen cs cs.length)) = none) :
    base64urlDecode (some cs) s = some (.inl .formatError) := by
  refine perform_raising_error (i := .b64decT false) (cs := cs) (cap := cs.length * 3 / 4) hidle (by omega) rfl h
    (fun hnull => by cases hnull) (.inr fun e hn hc => ?_)
  change b64Value (cs.take (trimLen e.chars e.srcLen.toNat)) = none
  rw [hc, hn, hv]

end Raising

theorem hexValue_eq_none_of_odd {cs : List Char16} (h : cs.length % 2 = 1) : hexValue cs = none := by
  rw [← Option.not_isSome_iff_eq_none, hexValue_isSome]
  omega

/-- Settles O42: an absent input is `NULL_INPUT`, an empty one has the empty value, and a malformed one has none. -/
theorem raisingFormsRaise : Obligations.RaisingFormsRaise := by
  intro s hidle
  refine ⟨base16Decode_none hidle, base64urlDecode_none hidle, base16Decode_of_value hidle (Nat.two_pow_pos _) rfl,
    base64urlDecode_of_value hidle (Nat.two_pow_pos _) rfl, fun cs hlen hbad => ?_, fun cs hlen ⟨L, htrim, hbad⟩ => ?_⟩
  · refine base16Decode_of_no_value hidle hlen ?_
    rcases hbad with hodd | ⟨c, hc, hnib⟩
    · exact hexValue_eq_none_of_odd hodd
    · exact hexValue_eq_none_of_mem hc hnib
  · obtain rfl := htrim.eq_trimLen
    refine base64urlDecode_of_no_value hidle hlen ?_
    rcases hbad with hone | ⟨c, hc, hsym⟩
    · exact b64Value_eq_none_of_length (by rwa [List.length_take_of_le (trimLen_le cs _)])
    · exact b64Value_eq_none_of_mem hc hsym

end Sys2Proof.Certificates
end

section
/-! PROOF. The blocks of a platform: each moves as a block by itself does, and alone (O44), in any order (O46), and each can
be used from reset on (O47). -/

namespace Sys2Proof.Certificates

open Sys2Proof.Machine

/-! ### One block of a platform replaced -/

/-- The platform after its block `k`, if it has one, has become `t`. -/
def withInstance (k : Nat) (t : State) (S : System) : System := { S with instances := S.instances.set k t }

theorem withInstance_getElem?_ne {k j : Nat} (h : k ≠ j) (t : State) (S : System) :
    (withInstance k t S).instances[j]? = S.instances[j]? := List.getElem?_set_ne h

theorem withInstance_comm {k j : Nat} (h : k ≠ j) (t u : State) (S : System) :
    withInstance k t (withInstance j u S) = withInstance j u (withInstance k t S) :=
  congrArg System.mk (List.set_comm u t h.symm)

/-! ### The moves of one block of a platform -/

section Instances

variable {k : Nat} {S S' : System} {s t : State}

theorem stepAt_of_no_instance (h : S.instances[k]? = none) : S.stepAt k = .next S := by
  simp [System.stepAt, h]

section Present

variable (hs : S.instances[k]? = some s)
include hs

theorem onlyInstance_withInstance (t : State) : OnlyInstance k t S (withInstance k t S) := by
  obtain ⟨hk, -⟩ := List.getElem?_eq_some_iff.1 hs
  exact ⟨List.getElem?_set_self hk, fun _ hj => withInstance_getElem?_ne hj.symm t S⟩

theorem stepAt_eq_next_iff : S.stepAt k = .next S' ↔ ∃ t, step s = .next t ∧ S' = withInstance k t S := by
  simp only [System.stepAt, hs]
  cases step s <;> simp [withInstance, eq_comm]

theorem hostAt_eq_some_iff (a : HostAction) :
    S.hostAt k a = some S' ↔ ∃ t, s.host a = some t ∧ S' = withInstance k t S := by
  simp only [System.hostAt, hs]
  cases s.host a <;> simp [withInstance, eq_comm]

theorem stepAt_of_step (h : step s = .next t) : S.stepAt k = .next (withInstance k t S) :=
  (stepAt_eq_next_iff hs).2 ⟨t, h, rfl⟩

theorem hostAt_of_host {a : HostAction} (h : s.host a = some t) :
    ∃ S', S.hostAt k a = some S' ∧ OnlyInstance k t S S' :=
  ⟨_, (hostAt_eq_some_iff hs a).2 ⟨t, h, rfl⟩, onlyInstance_withInstance hs t⟩

end Present

/-- A step of block `k` replaces that block only, and by a state that depends on that block only. With no such block there is
nothing to replace, and any state will do. -/
theorem exists_withInstance_of_stepAt (h : S.stepAt k = .next S') :
    ∃ t, ∀ T : System, T.instances[k]? = S.instances[k]? → T.stepAt k = .next (withInstance k t T) := by
  cases hs : S.instances[k]? with
  | none =>
    refine ⟨State.reset, fun T hT => ?_⟩
    rw [stepAt_of_no_instance hT, withInstance, List.set_eq_of_length_le (List.getElem?_eq_none_iff.1 hT)]
  | some s =>
    obtain ⟨t, ht, -⟩ := (stepAt_eq_next_iff hs).1 h
    exact ⟨t, fun T hT => stepAt_of_step hT ht⟩

end Instances

/-- Settles O44: each move there is the move of the block itself, with that one block of the platform replaced. -/
theorem instancesAreIndependent : Obligations.InstancesAreIndependent := by
  intro k S s hs
  refine ⟨fun t ht => ⟨_, stepAt_of_step hs ht, onlyInstance_withInstance hs t⟩, fun S' h => ?_,
    fun a t ht => hostAt_of_host hs ht, fun a S' h => ?_⟩
  · obtain ⟨t, ht, rfl⟩ := (stepAt_eq_next_iff hs).1 h
    exact ⟨t, ht, onlyInstance_withInstance hs t⟩
  · obtain ⟨t, ht, rfl⟩ := (hostAt_eq_some_iff hs a).1 h
    exact ⟨t, ht, onlyInstance_withInstance hs t⟩

/-! ### Steps in either order -/

/-- Settles O46: each step finds its block as it was, and the two replacements commute. -/
theorem instanceStepsCommute : Obligations.InstanceStepsCommute := by
  intro k j S S₁ S₂ hkj hk hj
  obtain ⟨t, ht⟩ := exists_withInstance_of_stepAt hk
  obtain ⟨u, hu⟩ := exists_withInstance_of_stepAt hj
  obtain rfl : S₁ = withInstance k t S := Host.Outcome.next.inj (hk.symm.trans (ht S rfl))
  obtain rfl : S₂ = withInstance j u S := Host.Outcome.next.inj (hj.symm.trans (hu S rfl))
  refine ⟨_, hu _ (withInstance_getElem?_ne hkj t S), ?_⟩
  rw [withInstance_comm hkj.symm]
  exact ht _ (withInstance_getElem?_ne hkj.symm u S)

/-! ### The use of every block of a platform -/

theorem onlyInstance_trans {k : Nat} {t u : State} {S S' S'' : System} (h : OnlyInstance k t S S')
    (h' : OnlyInstance k u S' S'') : OnlyInstance k u S S'' := by
  obtain ⟨-, hothers⟩ := h
  obtain ⟨hu, hothers'⟩ := h'
  exact ⟨hu, fun j hj => (hothers' j hj).trans (hothers j hj)⟩

theorem resetAt_getElem? {count k : Nat} (lenBits : Nat) (h : k < count) :
    (System.resetAt count lenBits).instances[k]? = some (State.resetAt lenBits) := by
  rw [System.resetAt, List.getElem?_replicate, if_pos h]

theorem truthful_of_zero_lengths {s : State} (hsrc : s.srcLen = 0) (hdst : s.dstCap = 0) : s.truthful = true := by
  cases hdecode : decode s.cmd with
  | error e => simp [State.truthful, hdecode]
  | ok i => simp [truthful_of_legal hdecode, truthfulFor_iff, hsrc, hdst]

theorem host_writeSrcLen_zero {s : State} (hbusy : s.busy = false) :
    s.host (.writeSrcLen 0) = some { s with srcLen := 0 } := by
  simp [State.host, hbusy]

theorem host_writeDstCap_zero {s : State} (hbusy : s.busy = false) :
    s.host (.writeDstCap 0) = some { s with dstCap := 0 } := by
  simp [State.host, hbusy]

/-- Settles O47: the four moves of the host, each on the block as the last one left it. -/
theorem everyInstanceCanBeUsed : Obligations.EveryInstanceCanBeUsed := by
  intro count lenBits k w hk
  have hreset := resetAt_getElem? lenBits hk
  obtain ⟨S₁, h₁, only₁⟩ := hostAt_of_host (a := .writeCmd w) hreset rfl
  obtain ⟨S₂, h₂, only₂⟩ := hostAt_of_host only₁.1 (host_writeSrcLen_zero rfl)
  obtain ⟨S₃, h₃, only₃⟩ := hostAt_of_host only₂.1 (host_writeDstCap_zero rfl)
  obtain ⟨S₄, h₄, only₄⟩ :=
    hostAt_of_host only₃.1 (host_issue_eq_some_iff.2 ⟨rfl, truthful_of_zero_lengths rfl rfl, rfl⟩)
  exact ⟨hreset, S₁, S₂, S₃, S₄, _, h₁, h₂, h₃, h₄,
    onlyInstance_trans only₁ (onlyInstance_trans only₂ (onlyInstance_trans only₃ only₄)), rfl, rfl, rfl⟩

end Sys2Proof.Certificates
end

section
/-! PROOF. A reset during a command (O7), the moves of the host (O30), where a command stops (O32), the documented capacities
(O39) and a padded text that is not trimmed (O40). -/

namespace Sys2Proof.Certificates

open Sys2Proof.Machine Sys2Proof.Safety

/-! ### A reset -/

/-- Bit 0 of `OP` tells a decoder from an encoder (R41, R30). -/
theorem opLowBit_of_decode {w : BitVec 8} {i : Instr} (h : decode w = .ok i) : (cmdOp w).getLsbD 0 = i.isDecoder := by
  obtain rfl := encode_of_decode h
  cases i with
  | b16encL | b16encU | b64enc | b64encP => rfl
  | b16dec null | b64dec null | b64decT null => cases null <;> rfl

/-- An abandoned command leaves its source alone, and its destination from `DST_CAP` on (R94). -/
theorem abandon_keeps {i : Instr} {s : State} (h : decode s.cmd = .ok i) :
    (i.isDecoder = true → s.abandon.chars = s.chars ∧ BytesKeptFrom s.dstCap.toNat s s.abandon) ∧
    (i.isDecoder = false → s.abandon.bytes = s.bytes ∧ CharsKeptFrom s.dstCap.toNat s s.abandon) := by
  rw [State.abandon, opLowBit_of_decode h]
  cases i.isDecoder
  case true => exact ⟨fun _ => ⟨rfl, spoilPrefix_length _ _ _, fun _ => spoilPrefix_above _ _ _⟩, nofun⟩
  case false => exact ⟨nofun, fun _ => ⟨rfl, spoilPrefix_length _ _ _, fun _ => spoilPrefix_above _ _ _⟩⟩

/-- Settles O7: the step takes the reset, which writes no buffer but the destination of a command it abandons. -/
theorem resetAbandonsTheCommand : Obligations.ResetAbandonsTheCommand := by
  intro s hreset
  refine ⟨_, step_of_reset hreset, rfl, rfl, rfl, s.takeReset_lenBits, fun hidle => ?_, fun i hbusy hdecode => ?_⟩
  · rw [State.takeReset_bytes, State.takeReset_chars, hidle]
    exact ⟨rfl, rfl⟩
  · rw [BytesKeptFrom, CharsKeptFrom, State.takeReset_bytes, State.takeReset_chars, hbusy]
    exact abandon_keeps hdecode

/-! ### The moves of the host -/

/-- Settles O30, move by move in `inv_host`: no move writes the response, and an issue tests the operands. -/
theorem hostMovesKeepTheInvariant : Obligations.HostMovesKeepTheInvariant := fun _ _ _ => inv_host

/-! ### Where a command stops -/

section Accesses

variable {L req count : Nat} {text : List Byte → List Char16} {value : List Char16 → Option (List Byte)} {s : State}

theorem encodeCommand_ne_refused {r : Refusal} : encodeCommand req count text s ≠ .refused r := by
  rcases encodeCommand_cases req count text s with ⟨-, h⟩ | ⟨-, -, h⟩ | ⟨-, -, -, h⟩ | ⟨-, -, -, h⟩ <;> exact h ▸ nofun

theorem decodePass_ne_refused {r : Refusal} : decodePass L req value s ≠ .refused r := by
  rcases decodePass_cases L req value s with ⟨-, h⟩ | ⟨-, -, h⟩ | ⟨-, -, -, h⟩ | ⟨-, -, -, ⟨_, -, h⟩ | ⟨-, h⟩⟩ <;>
    exact h ▸ nofun

variable (hcap : req ≤ s.dstCap.toNat)
include hcap

theorem encodeCommand_sourceOverrun (hshort : s.bytes.length < s.srcLen.toNat) :
    encodeCommand req count text s = .fault .sourceOverrun := by
  rw [encodeCommand, if_neg (Nat.not_lt.2 hcap), accessing, if_pos hshort]

theorem encodeCommand_destinationOverrun (hsize : s.srcLen.toNat ≤ s.bytes.length) (hshort : s.chars.length < req) :
    encodeCommand req count text s = .fault .destinationOverrun := by
  rw [encodeCommand, if_neg (Nat.not_lt.2 hcap), accessing, if_neg (Nat.not_lt.2 hsize), if_pos hshort]

theorem decodePass_sourceOverrun (hshort : s.chars.length < L) : decodePass L req value s = .fault .sourceOverrun := by
  rw [decodePass, if_neg (Nat.not_lt.2 hcap), accessing, if_pos hshort]

theorem decodePass_destinationOverrun (hsize : L ≤ s.chars.length) (hshort : s.bytes.length < req) :
    decodePass L req value s = .fault .destinationOverrun := by
  rw [decodePass, if_neg (Nat.not_lt.2 hcap), accessing, if_neg (Nat.not_lt.2 hsize), if_pos hshort]

end Accesses

/-- `B64DEC.T` reads its source to trim it, before any other check (R72). -/
theorem execB64decT_sourceOverrun {s : State} (hshort : s.chars.length < s.srcLen.toNat) :
    execB64decT false s = .fault .sourceOverrun := by
  rw [execB64decT, if_neg Bool.false_ne_true, if_pos hshort]

/-- Every command ends in an answer of its own, or in that of one of the two shared shapes. -/
theorem exec_ne_refused (i : Instr) (s : State) (r : Refusal) : exec i s ≠ .refused r := by
  cases i with
  | b16encL | b16encU | b64enc | b64encP => exact encodeCommand_ne_refused
  | b16dec null =>
    rw [exec, execB16dec]
    split_ifs
    exacts [nofun, nofun, decodePass_ne_refused]
  | b64dec null =>
    rw [exec, execB64dec]
    split_ifs
    exacts [nofun, decodePass_ne_refused]
  | b64decT null =>
    rw [exec, execB64decT]
    split_ifs
    exacts [nofun, nofun, decodePass_ne_refused]

theorem exec_fault_untruthful {i : Instr} {s : State} {f : Fault} (h : exec i s = .fault f) :
    i.null = false ∧ s.truthfulFor i = false := by
  refine ⟨Bool.eq_false_iff.2 fun hnull => ?_, Bool.eq_false_iff.2 fun htruth => ?_⟩
  · cases h.symm.trans (exec_null hnull s)
  · obtain ⟨t, ht⟩ := exec_goes htruth
    cases h.symm.trans ht

section Present

variable {i : Instr} {s : State} (hnull : i.null = false) (heven : i = .b16dec false → s.srcLen.toNat % 2 = 0)
include hnull heven

theorem exec_sourceOverrun (hcap : i = .b64decT false ∨ s.required i ≤ s.dstCap.toNat)
    (hshort : s.srcSize i < s.srcLen.toNat) : exec i s = .fault .sourceOverrun := by
  by_cases htrim : i = .b64decT false
  · subst htrim
    exact execB64decT_sourceOverrun hshort
  · have hcap := hcap.resolve_left htrim
    cases hi : i.isDecoder
    case false =>
      rw [State.srcSize, hi] at hshort
      exact (exec_encoder hi s).trans (encodeCommand_sourceOverrun hcap hshort)
    case true =>
      have hlen : s.sourceLength i = s.srcLen.toNat := by
        cases i with
        | b64decT null => exact absurd (congrArg Instr.b64decT hnull) htrim
        | b16encL | b16encU | b16dec _ | b64enc | b64encP | b64dec _ => rfl
      rw [State.srcSize, hi, ← hlen] at hshort
      exact (exec_decoder hi hnull heven fun h => absurd h htrim).trans (decodePass_sourceOverrun hcap hshort)

theorem exec_destinationOverrun (hcap : s.required i ≤ s.dstCap.toNat) (hsize : s.srcLen.toNat ≤ s.srcSize i)
    (hshort : s.dstSize i < s.required i) : exec i s = .fault .destinationOverrun := by
  rw [State.srcSize] at hsize
  rw [State.dstSize] at hshort
  cases hi : i.isDecoder <;> rw [hi] at hsize hshort
  case false => exact (exec_encoder hi s).trans (encodeCommand_destinationOverrun hcap hsize hshort)
  case true =>
    exact (exec_decoder hi hnull heven fun _ => hsize).trans
      (decodePass_destinationOverrun hcap ((sourceLength_le_srcLen i s).trans hsize) hshort)

end Present

/-- Settles O32: truthful operands go on, and past its other checks a command tests its source, then its destination. -/
theorem overstatedLengthsStop : Obligations.OverstatedLengthsStop := by
  refine ⟨fun _ _ _ => exec_fault_untruthful, exec_ne_refused, fun i s hnull heven => ?_, fun i s hnull heven => ?_⟩
  · rw [reqOf_eq_required]
    exact exec_sourceOverrun hnull heven
  · rw [reqOf_eq_required]
    exact exec_destinationOverrun hnull heven

/-! ### The documented capacities -/

/-- Settles O39: each formula is the `REQ` of its command, or for `B64DEC.T` at least that of the trimmed length. -/
theorem documentedCapacityIsEnough : Obligations.DocumentedCapacityIsEnough := by
  intro i s t h hcap
  refine cause_ne_capacity h (le_trans ?_ hcap)
  cases i with
  | b64decT _ => exact reqB64dec_trimLen_le s.chars s.srcLen.toNat
  | b16encL | b16encU | b16dec _ | b64enc | b64encP | b64dec _ => exact Nat.le_refl _

/-! ### Padding that is not trimmed -/

/-- Settles O40: `=` has no symbol value, so the text fails in the pass, or at the capacity check before it. -/
theorem untrimmedPaddingFails : Obligations.UntrimmedPaddingFails := by
  intro s hpos htruth hpad
  have hL : IsTextLength false s s.srcLen.toNat := rfl
  obtain ⟨hsize, hroom⟩ := (truthfulFor_decoder_iff (i := .b64dec false) rfl rfl s).1 htruth
  split
  case isTrue hcap =>
    obtain ⟨t, hexec, ⟨hok, hcause, -⟩, -⟩ :=
      b64dec_fails_on_other_text hL hcap hsize hroom (.inr ⟨_, _, Nat.sub_one_lt_of_lt hpos, hpad, sym_PADCH⟩)
    exact ⟨t, hexec, hok, hcause⟩
  case isFalse hcap => exact ⟨_, exec_b64decOf_capacity hL nofun (Nat.not_le.1 hcap), rfl, rfl⟩

end Sys2Proof.Certificates
end
